-- ==== Sys2Proof/Word.lean ====
section
/-! DEFINITION. The value types that the codec's ports and payloads carry. -/

namespace Sys2Proof

/-- An 8-bit byte of the payload channel (R8, R9). -/
abbrev Byte := BitVec 8

/-- A 32-bit word of the parallel ports CMD, STATUS and SOUT (R8, R54). -/
abbrev Word := BitVec 32

/-- A payload: always exactly 17 bytes, indexed 0..16 (R7, R80). -/
abbrev Payload := Vector Byte 17

/-- One mark/space pair of a pulse sequence, each duration an unsigned 32-bit count of microseconds
at the ports (R8, R90). -/
structure Pulse where
  mark : BitVec 32
  space : BitVec 32
deriving DecidableEq, Repr

/-- The five operating modes of the climate state (R73). -/
inductive Mode
  | cool | heat | dry | fanOnly | auto
deriving DecidableEq, Repr

/-- The four fan speeds of the climate state (R73). -/
inductive Fan
  | auto | low | medium | high
deriving DecidableEq, Repr

/-- A decoded climate state; `mode = none` is the source's "mode = Off" (R12, R77, C5). -/
structure Decoded where
  power : Bool
  mode : Option Mode
  temp : Nat
  fan : Fan
deriving DecidableEq, Repr

end Sys2Proof
end

