-- ==== Sys2Proof/Syntax.lean ====
section
/-! DEFINITION. The operations of the codec as syntax: one constructor per row of
spec/opcode_table.json, with the scalar operands the command word carries (R71, R74). -/

namespace Sys2Proof

/-- A decoded command. DECODE, SERIALIZE and DESERIALIZE take their operands from the data channels
and so carry none here (R71). The temperature is an integer, as R12 writes it; the port carries
-128..127 of it (R74), which `Instr.WellFormed` checks. -/
inductive Instr
  /-- ENCODE, OP 0x0 (R100). -/
  | encode (power : Bool) (modeSel : Fin 16) (fanSel : Fin 16) (temp : Int)
  /-- DECODE, OP 0x1 (R110). -/
  | decode
  /-- SERIALIZE, OP 0x2 (R140). -/
  | serialize
  /-- DESERIALIZE, OP 0x3 (R150). -/
  | deserialize
deriving DecidableEq, Repr

end Sys2Proof
end

