-- ==== Sys2Proof/WellFormed.lean ====
section
/-! DEFINITION. Which instructions a 32-bit command word can carry. -/

namespace Sys2Proof

/-- The temperatures that the 8-bit two's complement TEMP field can carry (R74). -/
abbrev TempFits (temp : Int) : Prop := -128 ≤ temp ∧ temp ≤ 127

/-- An instruction is well formed when every operand fits its field of the command word (R70, R74).
The selectors fit by their type. -/
def Instr.wellFormed : Instr → Bool
  | .encode _ _ _ temp => decide (TempFits temp)
  | .decode => true
  | .serialize => true
  | .deserialize => true

/-- `Instr.wellFormed` as a proposition. -/
abbrev Instr.WellFormed (i : Instr) : Prop := i.wellFormed = true

end Sys2Proof
end

