-- ==== Sys2Proof/Decode.lean ====
section
/-! DEFINITION. Command words: their fields, the decoder and the encoder (R70 to R74, R94). -/

namespace Sys2Proof

/-- Bits [3:0], the operation select OP (R70). -/
def cmdOp (w : Word) : BitVec 4 := w.extractLsb' 0 4

/-- Bit [4], PWR (R70). -/
def cmdPwr (w : Word) : Bool := w.getLsbD 4

/-- Bits [11:8], the mode selector (R70). -/
def cmdMode (w : Word) : Fin 16 := (w.extractLsb' 8 4).toFin

/-- Bits [15:12], the fan selector (R70). -/
def cmdFan (w : Word) : Fin 16 := (w.extractLsb' 12 4).toFin

/-- Bits [23:16], the temperature, read as 8-bit two's complement (R74). -/
def cmdTemp (w : Word) : Int := (w.extractLsb' 16 8).toInt

/-- The reserved bits [7:5] and [31:24] that an ENCODE word must hold 0 (R70). -/
def encodeReserved : Word := 0xFF0000E0#32

/-- The reserved bits [31:4] that the words of the other three operations must hold 0 (R70). -/
def dataReserved : Word := 0xFFFFFFF0#32

/-- Why a word is no command. Both reasons end with status IllegalCommand (R72). -/
inductive DecodeReject
  /-- OP is 0x4..0xF (R71). -/
  | reservedOpcode
  /-- A reserved bit of R70 is 1. -/
  | reservedBitSet
deriving DecidableEq, Repr

/-- `i`, unless the word has one of the bits `reserved` set (R72). -/
def checkReserved (w reserved : Word) (i : Instr) : Except DecodeReject Instr :=
  if w &&& reserved = 0 then .ok i else .error .reservedBitSet

/-- The decoder: the operation from OP alone, then the reserved bits, whose extent depends on the
operation (R94). Total on all 32-bit words. -/
def decodeCmd (w : Word) : Except DecodeReject Instr :=
  match (cmdOp w).toNat with
  | 0 => checkReserved w encodeReserved
      (.encode (cmdPwr w) (cmdMode w) (cmdFan w) (cmdTemp w))
  | 1 => checkReserved w dataReserved .decode
  | 2 => checkReserved w dataReserved .serialize
  | 3 => checkReserved w dataReserved .deserialize
  | _ => .error .reservedOpcode

/-- A word of the field layout that R70 gives CMD and R77 gives SOUT, from bit 31 down to bit 0: eight
zeros, TEMP, FAN, MODE, three zeros, PWR, and bits [3:0]. -/
def wordOfFields (temp : BitVec 8) (fan mode : BitVec 4) (power : Bool) (low : BitVec 4) : Word :=
  0#8 ++ temp ++ fan ++ mode ++ 0#3 ++ BitVec.ofBool power ++ low

/-- The encoder: the command word of an instruction (R70, R71). TEMP is the 8-bit two's complement of
the temperature (R74, R79). -/
def encodeCmd : Instr → Word
  | .encode power modeSel fanSel temp =>
      wordOfFields (BitVec.ofInt 8 temp) (BitVec.ofFin fanSel) (BitVec.ofFin modeSel) power 0x0#4
  | .decode => wordOfFields 0 0 0 false 0x1#4
  | .serialize => wordOfFields 0 0 0 false 0x2#4
  | .deserialize => wordOfFields 0 0 0 false 0x3#4

/-- The command word whose low `nbits` bits are those of `w` and whose other bits are 0: bit 0 of the
opcode table's numbering is bit 0 of the word (R9, R54). -/
def tableWord (nbits w : Nat) : Word := BitVec.ofNat 32 (w % 2 ^ nbits)

/-- The instruction the decoder reads from a word numbered as spec/opcode_table.json numbers it. -/
def decodeTableWord (nbits w : Nat) : Option Instr := (decodeCmd (tableWord nbits w)).toOption

end Sys2Proof
end

