-- ==== Sys2Proof/Machine/Operands.lean ====
section
/-! DEFINITION. Every operand form: the code tables, the payload's fields and their packing, the SOUT
word, and the pulse constants (R7, R53, R75 to R92). -/

namespace Sys2Proof.Machine

/-! ### Selectors and codes -/

/-- The mode a 4-bit MODE selector names; 0x5..0xF are unrecognized (R75). -/
def modeOfSel (sel : Fin 16) : Option Mode :=
  match sel.val with
  | 0 => some .cool
  | 1 => some .heat
  | 2 => some .dry
  | 3 => some .fanOnly
  | 4 => some .auto
  | _ => none

/-- The MODE selector of a mode (R75). -/
def selOfMode : Mode → Fin 16
  | .cool => 0
  | .heat => 1
  | .dry => 2
  | .fanOnly => 3
  | .auto => 4

/-- SOUT.MODE of the decoded mode Off (R77). -/
def modeSelOff : Fin 16 := 0xF

/-- The operating-mode code of a mode, the low nibble of byte 6 (R83). -/
def modeCode : Mode → Byte
  | .fanOnly => 0x0
  | .cool => 0x1
  | .heat => 0x2
  | .auto => 0x3
  | .dry => 0x5

/-- The mode an operating-mode nibble names; 0x4 and 0x6..0xF are reserved (R83). -/
def modeOfCode (nibble : Byte) : Option Mode :=
  match nibble.toNat with
  | 0x0 => some .fanOnly
  | 0x1 => some .cool
  | 0x2 => some .heat
  | 0x3 => some .auto
  | 0x5 => some .dry
  | _ => none

/-- The fan speed a 4-bit FAN selector names; 0x4..0xF are unrecognized (R76). -/
def fanOfSel (sel : Fin 16) : Option Fan :=
  match sel.val with
  | 0 => some .auto
  | 1 => some .low
  | 2 => some .medium
  | 3 => some .high
  | _ => none

/-- The FAN selector of a fan speed (R76). -/
def selOfFan : Fan → Fin 16
  | .auto => 0
  | .low => 1
  | .medium => 2
  | .high => 3

/-- The fan code of a fan speed, byte 7 (R85). -/
def fanCode : Fan → Byte
  | .auto => 0x31
  | .low => 0x33
  | .medium => 0x35
  | .high => 0x37

/-- The fan speed a fan code decodes to; any other value is Auto (R85, R117). -/
def fanOfCode (code : Byte) : Fan :=
  match code.toNat with
  | 0x31 => .auto
  | 0x33 => .low
  | 0x35 => .medium
  | 0x37 => .high
  | _ => .auto

/-! ### The payload's fields -/

/-- The header constant at bytes 0..4 (R81). -/
def hdr : Vector Byte 5 := #v[0x23, 0xCB, 0x26, 0x21, 0x00]

/-- The power byte of "on" (R82). -/
def pwrOn : Byte := 0x40

/-- The power byte ENCODE writes for "off" (R82). -/
def pwrOff : Byte := 0x00

/-- The power byte ENCODE writes (R82). -/
def powerByte (power : Bool) : Byte := if power then pwrOn else pwrOff

/-- The lowest temperature ENCODE transmits as given (R7, R104). -/
def tempMin : Int := 19

/-- The highest temperature ENCODE transmits as given (R7, R104). -/
def tempMax : Int := 30

/-- The fallback temperature (R7, R104). -/
def tempFallback : Nat := 19

/-- The offset of the temperature field (R7, R84). -/
def tempOffset : Nat := 16

/-- The temperature ENCODE transmits: the requested one within 19..30, else 19, never the nearest
bound (R104, C2). -/
def encodeTemp (temp : Int) : Nat :=
  if tempMin ≤ temp ∧ temp ≤ tempMax then temp.toNat else tempFallback

/-- Byte 6: the temperature offset in the high nibble, the mode code in the low one (R53, R88). -/
def packByte6 (temp : Nat) (code : Byte) : Byte :=
  (BitVec.ofNat 8 (temp - tempOffset) <<< 4) ||| code

/-- The operating-mode nibble of byte 6, bits [3:0] (R88). -/
def byte6Mode (b : Byte) : Byte := b &&& 0x0F

/-- The temperature of byte 6, bits [7:4] plus 16 (R84, R88). -/
def byte6Temp (b : Byte) : Nat := (b >>> 4).toNat + tempOffset

/-- The template payload: the header, then twelve zero bytes (R101). -/
def payloadTemplate : Payload := hdr ++ (Vector.replicate 12 0 : Vector Byte 12)

/-- A byte sequence as a payload; `none` when its length is not 17 (R80, R111). -/
def payloadOfBytes (b : List Byte) : Option Payload :=
  if h : b.length = 17 then some ⟨b.toArray, by simpa using h⟩ else none

/-- Bytes 11..16 made the complements of bytes 5..10 (R87). -/
def setInverse (p : Payload) : Payload :=
  (List.finRange 6).foldl (fun (q : Payload) (k : Fin 6) => q.set (11 + k) (~~~q[5 + k.val])) p

/-! ### The SOUT word -/

/-- SOUT.MODE: the decoded mode's selector, 0xF when Off (R77). -/
def soutMode : Option Mode → Fin 16
  | some m => selOfMode m
  | none => modeSelOff

/-- The DECODE result word: bits [3:0] zero, then the decoded fields (R77). -/
def soutWord (d : Decoded) : Word :=
  wordOfFields (BitVec.ofNat 8 d.temp) (BitVec.ofFin (selOfFan d.fan))
    (BitVec.ofFin (soutMode d.mode)) d.power 0x0#4

/-! ### Pulses -/

/-- HDR_MARK in microseconds (R92). -/
def hdrMark : Nat := 3060
/-- HDR_SPACE in microseconds (R92). -/
def hdrSpace : Nat := 1580
/-- BIT_MARK in microseconds, also the terminator's mark (R92). -/
def bitMark : Nat := 350
/-- ONE_SPACE in microseconds (R92). -/
def oneSpace : Nat := 1150
/-- ZERO_SPACE in microseconds (R92). -/
def zeroSpace : Nat := 390
/-- END_SPACE in microseconds (R92). -/
def endSpace : Nat := 0

/-- The carrier frequency of every mark, in Hz: a property of the frame that the host's transmitter
applies and no operation reads (R93, R210, D28). -/
def carrierHz : Nat := 38000

/-- A pair of the given durations in microseconds. -/
def mkPulse (mark space : Nat) : Pulse := ⟨BitVec.ofNat 32 mark, BitVec.ofNat 32 space⟩

/-- The header pair (R91, R142). -/
def headerPulse : Pulse := mkPulse hdrMark hdrSpace

/-- The pair of one data bit (R91, R143). -/
def bitPulse (b : Bool) : Pulse := mkPulse bitMark (if b then oneSpace else zeroSpace)

/-- The terminator pair (R91, R144). -/
def terminatorPulse : Pulse := mkPulse bitMark endSpace

/-- The air time of a pulse sequence in microseconds, as an exact sum (R212). -/
def airTime (q : List Pulse) : Nat := (q.map fun p => p.mark.toNat + p.space.toNat).sum

/-- How many 1 bits a payload has, the w of R212. -/
def oneBits (p : Payload) : Nat :=
  (p.toList.map fun b => (List.finRange 8).countP fun j => b.getLsbD j).sum

end Sys2Proof.Machine
end

