-- ==== Sys2Proof/Config.lean ====
section
/-! DEFINITION. What an implementation fixes when the block is instantiated: the one parameter
TOL_PCT (R6, R26). The block leaves no value free, so there is no opaque constant here. -/

namespace Sys2Proof.Config

/-- The legal timing tolerances, an integer percentage in 0..49 (R6, R26). A larger one is no
configuration of the block (R205). -/
abbrev TolPct := Fin 50

/-- The default tolerance, 25 % (R6, D15). -/
def defaultTolPct : TolPct := 25

end Sys2Proof.Config
end

