-- ==== Sys2Proof/Machine/State.lean ====
section
/-! DEFINITION. The machine's state: ports, transient datapath registers, configuration, and the
host's actions still to come. -/

namespace Sys2Proof.Machine

/-- The status names; the numeric codes are in Machine/Flags.lean (R180). -/
inductive Status
  | ok | framingError | tooShort | badHeader | checksumMismatch | unknownOperatingMode
  | unsupportedMode | illegalCommand
deriving DecidableEq, Repr

/-- PHASE, the position of the deserializer's grammar machine (R29). -/
inductive Phase
  | expectHeader
  | expectBit (byteIdx : Fin 17) (bitIdx : Fin 8)
  | done
  | failed
deriving DecidableEq, Repr

/-- The transient datapath registers, which one operation uses and no program can read (R21). -/
structure Datapath where
  /-- PBUF[0..16], the payload being built or read. -/
  pbuf : Payload
  /-- ACC[0..16], the payload being assembled from bits. -/
  acc : Payload
  /-- PHASE (R29). -/
  phase : Phase
  /-- K in 0..138, the index of the next pair to emit (R30). -/
  k : Fin 139
deriving DecidableEq, Repr

/-- The datapath at reset and at the start of every operation (R31). DESIGN CHOICE (log entry 3):
PBUF is 17 zero bytes, since R31 gives it a value only once an operation has loaded it; unsafe. -/
def Datapath.initial : Datapath :=
  { pbuf := Vector.replicate 17 0, acc := Vector.replicate 17 0, phase := .expectHeader, k := 0 }

/-- The output ports (R25). -/
inductive OutPort
  | status | sout | pout | qout
deriving DecidableEq, Repr

/-- What the host drives on PIN with a command: bytes of its own, or the POUT of the previous
operation, `pin=POUT` (R24, R79). -/
inductive PinSource
  | bytes (b : List Byte)
  | pout
deriving DecidableEq, Repr

/-- What the host drives on QIN with a command: pairs of its own, or the QOUT of the previous
operation, `qin=QOUT` (R24, R79). -/
inductive QinSource
  | pairs (q : List Pulse)
  | qout
deriving DecidableEq, Repr

/-- One command as the host issues it: the word, what it drives on the data channels, and whether it
is issued only if the previous operation ended OK, as the second command of a pseudo-operation is
(R96). -/
structure Request where
  cmd : Word
  pin : PinSource
  qin : QinSource
  onlyIfOk : Bool
deriving DecidableEq, Repr

/-- What the outside world does to the block (R197, R200, R203). -/
inductive HostAction
  /-- Present a command word with its data channels. -/
  | command (r : Request)
  /-- Read an output port. -/
  | read (p : OutPort)
  /-- Apply reset; `during` is the operation it interrupts, if any (R203). -/
  | reset (during : Option Request)
deriving DecidableEq, Repr

/-- The state of one instance of the block. DEDUCED (log entry 1): an output that holds no value is
`none`, as R25 and R31 have it; safe. -/
structure State where
  /-- CMD, the command word port (R24). -/
  cmd : Word
  /-- PIN, the byte sequence port (R24). -/
  pin : List Byte
  /-- QIN, the pulse sequence port (R24). -/
  qin : List Pulse
  /-- STATUS (R25, R78). -/
  status : Option Word
  /-- SOUT (R25, R77). -/
  sout : Option Word
  /-- POUT (R25). -/
  pout : Option Payload
  /-- QOUT (R25). -/
  qout : Option (List Pulse)
  /-- PBUF, ACC, PHASE and K (R21). -/
  dp : Datapath
  /-- TOL_PCT (R6, R26). -/
  tolPct : Config.TolPct
  /-- The host's actions that have not reached the block yet, oldest first: the arrival order of R60.
  The model's own field (DESIGN CHOICE, log entry 5; safe). -/
  inputs : List HostAction
deriving DecidableEq, Repr

/-- The block never faults: every failure is a result with a status, no state is saved and no handler
runs (R183, R188). So the type has no constructor (DEDUCED, log entry 15; safe). -/
inductive Fault
deriving DecidableEq, Repr

/-- Why a step, or an instantiation, has no result. -/
inductive Refusal
  /-- An instruction without a meaning; no arm of exec raises it in this model. Safe. -/
  | notModelled (mnemonic : String)
  /-- The host reads an output port that holds no value, or routes one into a command that reads that
  channel: "reading one is refused" (R25, R184, I12). Raised by Machine/Ops.lean. Safe. -/
  | outputHoldsNoValue (port : OutPort)
  /-- An instantiation with TOL_PCT of 50 or more (R205, I13). Raised by `instantiate`. Safe. -/
  | toleranceOutOfRange (tolPct : Nat)
deriving DecidableEq, Repr

/-- The machine right after reset: no result, the datapath at its start values, ready for a command
(R31, R200), instantiated with the default tolerance (R6, log entry 8). DESIGN CHOICE (log entry 2):
the input ports hold 0 and empty sequences, since the spec gives them no reset value; unsafe. -/
def State.reset : State :=
  { cmd := 0, pin := [], qin := [],
    status := none, sout := none, pout := none, qout := none,
    dp := Datapath.initial, tolPct := Config.defaultTolPct, inputs := [] }

end Sys2Proof.Machine
end

