-- ==== Sys2Proof/Machine/Flags.lean ====
section
/-! DEFINITION. The block has no flags (R23). This file holds what stands in their place: the STATUS
word's codes and the predicates that decide a status: header, inverse relation, tolerance. -/

namespace Sys2Proof.Machine

/-- The numeric code of a status (R180). -/
def Status.code : Status → Nat
  | .ok => 0
  | .framingError => 1
  | .tooShort => 2
  | .badHeader => 3
  | .checksumMismatch => 4
  | .unknownOperatingMode => 5
  | .unsupportedMode => 6
  | .illegalCommand => 7

/-- The STATUS word of a status: the code in bits [3:0], bits [31:4] zero (R78, R182). -/
def Status.word (st : Status) : Word := BitVec.ofNat 32 st.code

/-- The status a STATUS word stands for; codes 8 to 15 are never produced (R180). -/
def statusOfWord (w : Word) : Option Status :=
  match w.toNat with
  | 0 => some .ok
  | 1 => some .framingError
  | 2 => some .tooShort
  | 3 => some .badHeader
  | 4 => some .checksumMismatch
  | 5 => some .unknownOperatingMode
  | 6 => some .unsupportedMode
  | 7 => some .illegalCommand
  | _ => none

/-- Bytes 0..4 equal the header constant (R81, R112). -/
def headerOk (p : Payload) : Bool := (List.finRange 5).all fun i => p[i.val] == hdr[i.val]

/-- The six inverse relations hold (R87, R113). -/
def inverseOk (p : Payload) : Bool := (List.finRange 6).all fun k => p[11 + k.val] == ~~~p[5 + k.val]

/-- The tolerance predicate: the closed window around the nominal duration `n`, in exact integer
arithmetic (R145). -/
def within (tol : Config.TolPct) (d : BitVec 32) (n : Nat) : Bool :=
  decide ((100 - tol.val) * n ≤ 100 * d.toNat) && decide (100 * d.toNat ≤ (100 + tol.val) * n)

/-- Both halves of a pair match the header pair (R152, D26). -/
def matchesHeader (tol : Config.TolPct) (p : Pulse) : Bool :=
  within tol p.mark hdrMark && within tol p.space hdrSpace

/-- The bit a pair carries, the mark compared first, then ONE_SPACE before ZERO_SPACE; `none` when it
is no bit pair (R153, R154). -/
def bitOfPulse (tol : Config.TolPct) (p : Pulse) : Option Bool :=
  if !within tol p.mark bitMark then none
  else if within tol p.space oneSpace then some true
  else if within tol p.space zeroSpace then some false
  else none

end Sys2Proof.Machine
end

