-- ==== Sys2Proof/Machine/Ops.lean ====
section
/-! DEFINITION. The named operations over the machine's state: starting an operation, ending it with a
result or an error status, presenting a command, reading an output, reset and instantiation. -/

namespace Sys2Proof.Machine

/-- The data output of an operation that ends OK, one of the three of R25. -/
inductive Output
  | sout (w : Word)
  | pout (p : Payload)
  | qout (q : List Pulse)
deriving DecidableEq, Repr

/-! ### One operation -/

/-- The start of every operation: the datapath at the values of R31. -/
def State.begin (s : State) : State := { s with dp := Datapath.initial }

/-- `PBUF <- p` (R100, R110, R140). -/
def State.loadPbuf (s : State) (p : Payload) : State := { s with dp := { s.dp with pbuf := p } }

/-- The end of an operation with status OK: STATUS and the one data output are written together, the
other data outputs hold no value (R25, R56). DEDUCED (log entry 4): the datapath is back at its start
values, since it exists only during the operation; unsafe. -/
def State.complete (s : State) (o : Output) : State :=
  let t := { s with status := some Status.ok.word, sout := none, pout := none, qout := none,
                    dp := Datapath.initial }
  match o with
  | .sout w => { t with sout := some w }
  | .pout p => { t with pout := some p }
  | .qout q => { t with qout := some q }

/-- `raise`: the end of an operation with an error status, the ONE way the block reports a failure. It
is a result, not a trap: STATUS takes the code, no data output holds a value, nothing else changes
(R10, R182, R183, R184). There is no return from it, because nothing was entered (R189). The datapath
as in `State.complete` (log entry 4). -/
def State.raise (s : State) (e : Status) : State :=
  { s with status := some e.word, sout := none, pout := none, qout := none,
           dp := Datapath.initial }

/-! ### The host's side -/

/-- What a command with this PIN source finds on PIN. DESIGN CHOICE (log entry 7): a POUT that holds no
value leaves the port empty, which no operation sees (`Request.missing`); safe. -/
def PinSource.value (s : State) : PinSource → List Byte
  | .bytes b => b
  | .pout => (s.pout.map Vector.toList).getD []

/-- What a command with this QIN source finds on QIN; see `PinSource.value`. -/
def QinSource.value (s : State) : QinSource → List Pulse
  | .pairs q => q
  | .qout => s.qout.getD []

/-- The input ports as the host drives them for a command (R24). -/
def State.present (s : State) (r : Request) : State :=
  { s with cmd := r.cmd, pin := r.pin.value s, qin := r.qin.value s }

/-- The output port that a command routes into the data channel its operation reads although the port
holds no value, if there is one: that read is refused (R184). Channels an operation does not read do
not matter (R71, R72; log entry 7). -/
def Request.missing (r : Request) (i : Instr) (s : State) : Option OutPort :=
  match i with
  | .encode _ _ _ _ => none
  | .decode => if r.pin = .pout ∧ s.pout = none then some .pout else none
  | .serialize => if r.pin = .pout ∧ s.pout = none then some .pout else none
  | .deserialize => if r.qin = .qout ∧ s.qout = none then some .qout else none

/-- A command the host does not issue, because it was to follow an OK and the last operation did not
end OK (R96). -/
def Request.skipped (r : Request) (s : State) : Bool :=
  r.onlyIfOk && decide (s.status ≠ some Status.ok.word)

/-- An output port holds a value (R25, R31). -/
def State.holds (s : State) : OutPort → Bool
  | .status => s.status.isSome
  | .sout => s.sout.isSome
  | .pout => s.pout.isSome
  | .qout => s.qout.isSome

/-- The host reads an output port: no side effect (R57), refused when the port holds no value (R184). -/
def State.readPort (s : State) (p : OutPort) : Host.Outcome State Fault Refusal :=
  if s.holds p then .next s else .refused (.outputHoldsNoValue p)

/-- Reset: every piece of state at the values of R31, TOL_PCT unchanged (R200, R202). The host's
actions still to come are not the block's state and stay (DESIGN CHOICE, log entry 6; safe). -/
def State.applyReset (s : State) : State :=
  { State.reset with tolPct := s.tolPct, inputs := s.inputs }

/-- Instantiation with a tolerance: 50 or more is refused (R204, R205). -/
def instantiate (tolPct : Nat) : Host.Outcome State Fault Refusal :=
  if h : tolPct < 50 then .next { State.reset with tolPct := ⟨tolPct, h⟩ }
  else .refused (.toleranceOutOfRange tolPct)

/-- The host action that reaches the block next, taken off the list of those to come (R60). -/
def State.popInputs (s : State) (rest : List HostAction) : State := { s with inputs := rest }

/-- A command's word and data channels, put before the host's other actions; the data channels keep
what the input ports hold. -/
def State.pushCommand (s : State) (w : Word) : State :=
  { s with inputs := .command ⟨w, .bytes s.pin, .pairs s.qin, false⟩ :: s.inputs }

end Sys2Proof.Machine
end

