-- ==== Sys2Proof/Machine/FrameCodec.lean ====
section
/-! DEFINITION. The Frame Codec: ENCODE and DECODE (40_frame_codec.md). -/

namespace Sys2Proof.Machine

/-- The mode code ENCODE writes: with power off an unrecognized selector leaves the template's 0x0
(R102, D10); with power on it fails (R103). -/
def encodeModeCode (power : Bool) (sel : Fin 16) : Except Status Byte :=
  match modeOfSel sel with
  | some m => .ok (modeCode m)
  | none => if power then .error .unsupportedMode else .ok 0x0

/-- The fan code ENCODE writes; an unrecognized selector gives 0x31 (R106). -/
def encodeFanCode (sel : Fin 16) : Byte :=
  match fanOfSel sel with
  | some f => fanCode f
  | none => fanCode .auto

/-- The ENCODE function of R12, in the order of R100: template, power byte, mode code, temperature,
byte 6, fan code, inverse bytes. -/
def encodePayload (power : Bool) (modeSel fanSel : Fin 16) (temp : Int) : Except Status Payload :=
  match encodeModeCode power modeSel with
  | .error e => .error e
  | .ok mc =>
      let pbuf := payloadTemplate.set 5 (powerByte power)
      let pbuf := pbuf.set 6 (packByte6 (encodeTemp temp) mc)
      let pbuf := pbuf.set 7 (encodeFanCode fanSel)
      .ok (setInverse pbuf)

/-- ENCODE (R100). -/
def execEncode (power : Bool) (modeSel fanSel : Fin 16) (temp : Int) (s : State) :
    Host.Outcome State Fault Refusal :=
  match encodePayload power modeSel fanSel temp with
  | .error e => .next (s.begin.raise e)
  | .ok p =>
      let s := s.begin.loadPbuf p
      .next (s.complete (.pout s.dp.pbuf))

/-- The mode DECODE reports: with power on the nibble's mode, and an error when it names none (R115);
with power off none, whatever the nibble holds (R114). -/
def decodeMode (power : Bool) (nibble : Byte) : Except Status (Option Mode) :=
  if power then
    match modeOfCode nibble with
    | some m => .ok (some m)
    | none => .error .unknownOperatingMode
  else .ok none

/-- DECODE after its length check: header, inverse relation, then the fields, in the order of R110 and
R185. Bytes 8, 9 and 10 are never interpreted (R118). -/
def decodePayload (p : Payload) : Except Status Decoded :=
  if !headerOk p then .error .badHeader
  else if !inverseOk p then .error .checksumMismatch
  else
    let power := p[5] == pwrOn
    match decodeMode power (byte6Mode p[6]) with
    | .error e => .error e
    | .ok mode => .ok { power, mode, temp := byte6Temp p[6], fan := fanOfCode p[7] }

/-- DECODE (R110): PIN is loaded into PBUF when it has 17 bytes, else TooShort (R111). -/
def execDecode (s : State) : Host.Outcome State Fault Refusal :=
  match payloadOfBytes s.pin with
  | none => .next (s.begin.raise .tooShort)
  | some p =>
      let s := s.begin.loadPbuf p
      match decodePayload s.dp.pbuf with
      | .error e => .next (s.raise e)
      | .ok d => .next (s.complete (.sout (soutWord d)))

end Sys2Proof.Machine
end

