-- ==== Sys2Proof/Machine/PulseTransport.lean ====
section
/-! DEFINITION. The Pulse Transport: SERIALIZE and DESERIALIZE (41_pulse_transport.md). -/

namespace Sys2Proof.Machine

/-! ### SERIALIZE: the sequencer K -/

/-- The last value of K: the sequence is complete (R30). -/
def kDone : Fin 139 := 138

/-- Bit `n` of the payload in wire order, byte by byte and least significant bit first (R52, R143). -/
def payloadBit (p : Payload) (n : Fin 136) : Bool := (p[n.val / 8]'(by omega)).getLsbD (n.val % 8)

/-- The pair that the sequencer emits at K: the header at 0, bit K - 1 at 1..136, then the terminator
(R30, R140). -/
def pairAt (p : Payload) (k : Fin 139) : Pulse :=
  if k = 0 then headerPulse
  else if h : k.val - 1 < 136 then bitPulse (payloadBit p ⟨k.val - 1, h⟩)
  else terminatorPulse

/-- The next value of K; it stops at 138 (R141). -/
def nextK (k : Fin 139) : Fin 139 := if h : k.val + 1 < 139 then ⟨k.val + 1, h⟩ else kDone

/-- Runs the sequencer for at most `fuel` pairs, until K is 138, and answers the datapath then and the
pairs emitted, first to last (R30, R141). -/
def Datapath.emitPairs (d : Datapath) : Nat → Datapath × List Pulse
  | 0 => (d, [])
  | fuel + 1 =>
      if d.k = kDone then (d, [])
      else
        let r := Datapath.emitPairs { d with k := nextK d.k } fuel
        (r.1, pairAt d.pbuf d.k :: r.2)

/-- SERIALIZE (R140): PIN is loaded into PBUF when it has 17 bytes, else TooShort (D13). -/
def execSerialize (s : State) : Host.Outcome State Fault Refusal :=
  match payloadOfBytes s.pin with
  | none => .next (s.begin.raise .tooShort)
  | some p =>
      let s := s.begin.loadPbuf p
      let r := s.dp.emitPairs kDone
      .next (State.complete { s with dp := r.1 } (.qout r.2))

/-! ### DESERIALIZE: the grammar machine (PHASE, ACC) -/

/-- `ACC[i] <- ACC[i] | (1 << j)` (R151). -/
def setAccBit (acc : Payload) (i : Fin 17) (j : Fin 8) : Payload :=
  acc.set i (acc[i] ||| (1#8 <<< j.val))

/-- The phase after bit (i, j): bit j + 1, the next byte's bit 0, or Done (R151). -/
def nextPhase (i : Fin 17) (j : Fin 8) : Phase :=
  if hj : j.val + 1 < 8 then .expectBit i ⟨j.val + 1, hj⟩
  else if hi : i.val + 1 < 17 then .expectBit ⟨i.val + 1, hi⟩ 0
  else .done

/-- One transition of the grammar machine: it consumes one pair (R151). -/
def Datapath.feed (tol : Config.TolPct) (d : Datapath) (p : Pulse) : Datapath :=
  match d.phase with
  | .expectHeader =>
      if matchesHeader tol p then { d with phase := .expectBit 0 0 } else { d with phase := .failed }
  | .expectBit i j =>
      match bitOfPulse tol p with
      | some true => { d with phase := nextPhase i j, acc := setAccBit d.acc i j }
      | some false => { d with phase := nextPhase i j }
      | none => { d with phase := .failed }
  | .done => d
  | .failed => d

/-- The grammar machine run over a pulse sequence (R151). -/
def Datapath.feedAll (tol : Config.TolPct) (d : Datapath) (q : List Pulse) : Datapath :=
  q.foldl (Datapath.feed tol) d

/-- DESERIALIZE (R150, R151): the machine runs over QIN; OK with POUT = ACC if it ends in Done, else
FramingError. -/
def execDeserialize (s : State) : Host.Outcome State Fault Refusal :=
  let s := s.begin
  let s := { s with dp := s.dp.feedAll s.tolPct s.qin }
  if s.dp.phase = .done then .next (s.complete (.pout s.dp.acc))
  else .next (s.raise .framingError)

end Sys2Proof.Machine
end

