-- ==== Sys2Proof/Machine/Issue.lean ====
section
/-! DEFINITION. How a command word that reaches the block is run: the command-word check, then the
operation. -/

namespace Sys2Proof.Machine

/-- The block takes a command word (R70, R72, R186): the command-word check comes first and an illegal
word ends with IllegalCommand whatever its channels hold; else the operation runs on the ports the host
drives, unless it reads a routed output that holds no value. -/
def issue (s : State) (r : Request) : Host.Outcome State Fault Refusal :=
  if r.skipped s then .next s
  else
    match decodeCmd r.cmd with
    | .error _ => .next ((s.present r).raise .illegalCommand)
    | .ok i =>
        match r.missing i s with
        | some p => .refused (.outputHoldsNoValue p)
        | none => exec i (s.present r)

/-- One host action reaches the block. A reset abandons the operation it interrupts: neither its word
nor its channels are looked at (R203). -/
def act (s : State) : HostAction → Host.Outcome State Fault Refusal
  | .command r => issue s r
  | .read p => s.readPort p
  | .reset _ => .next s.applyReset

end Sys2Proof.Machine
end

