-- ==== Sys2Proof/Machine/Step.lean ====
section
/-! DEFINITION. One step of the machine: the host action that reaches the block next. -/

namespace Sys2Proof.Machine

/-- One step: the oldest host action still to come, one operation at a time in arrival order (R60).
With no action to come the block waits, unchanged (DESIGN CHOICE, log entry 5; safe). -/
def step (s : State) : Host.Outcome State Fault Refusal :=
  match s.inputs with
  | [] => .next s
  | a :: rest => act (s.popInputs rest) a

/-- `s` with the command word `w`, numbered as spec/opcode_table.json numbers it, as the host's next
action: the block runs no stored program (R22), so this is where a step takes its next instruction
from (log entry 5). The data channels stay what the input ports hold. -/
def State.withFetchWord (s : State) (nbits w : Nat) : State := s.pushCommand (tableWord nbits w)

end Sys2Proof.Machine
end

