-- ==== Sys2Proof/Machine/Pipeline.lean ====
section
/-! DEFINITION. The pseudo-operations SEND and RECEIVE as the commands they expand to (R96). Running
them is the machine's ordinary step: the second command is issued only if the first ended OK. -/

namespace Sys2Proof.Machine

/-- A command of the host with its own data on the channels. -/
def command (i : Instr) (pin : List Byte) (qin : List Pulse) : Request :=
  ⟨encodeCmd i, .bytes pin, .pairs qin, false⟩

/-- SEND: ENCODE, then SERIALIZE of POUT only if ENCODE's status is OK (R96, R170). -/
def sendRequests (power : Bool) (modeSel fanSel : Fin 16) (temp : Int) : List Request :=
  [command (.encode power modeSel fanSel temp) [] [],
   ⟨encodeCmd .serialize, .pout, .pairs [], true⟩]

/-- RECEIVE: DESERIALIZE, then DECODE of POUT only if DESERIALIZE's status is OK (R96, R171). -/
def receiveRequests (qin : QinSource) : List Request :=
  [⟨encodeCmd .deserialize, .bytes [], qin, false⟩,
   ⟨encodeCmd .decode, .pout, .pairs [], true⟩]

end Sys2Proof.Machine
end

