-- ==== Sys2Proof/Machine/Asm.lean ====
section
/-! DEFINITION. The assembler notation of R79: a line of text, its abstract form, and the host actions
it stands for. Notation only (D30): no operation depends on it. -/

namespace Sys2Proof.Machine

/-! ### Abstract lines -/

/-- One line of R79, its operands already read; mode and fan are selector values, however spelled. -/
inductive AsmLine
  | encode (power : Bool) (modeSel fanSel : Fin 16) (temp : Int)
  | decode (pin : PinSource)
  | serialize (pin : PinSource)
  | deserialize (qin : QinSource)
  /-- `.word`: a raw command word; the channels carry what the line's comment states. -/
  | word (w : Word) (pin : PinSource) (qin : QinSource)
  | send (power : Bool) (modeSel fanSel : Fin 16) (temp : Int)
  | receive (qin : QinSource)
deriving DecidableEq, Repr

/-- The commands a line stands for, packed by R70 (R79, R96). -/
def AsmLine.requests : AsmLine → List Request
  | .encode power modeSel fanSel temp => [command (.encode power modeSel fanSel temp) [] []]
  | .decode pin => [⟨encodeCmd .decode, pin, .pairs [], false⟩]
  | .serialize pin => [⟨encodeCmd .serialize, pin, .pairs [], false⟩]
  | .deserialize qin => [⟨encodeCmd .deserialize, .bytes [], qin, false⟩]
  | .word w pin qin => [⟨w, pin, qin, false⟩]
  | .send power modeSel fanSel temp => sendRequests power modeSel fanSel temp
  | .receive qin => receiveRequests qin

/-- The host's actions for a program of lines, in order. -/
def assemble (lines : List AsmLine) : List HostAction :=
  lines.flatMap fun l => l.requests.map .command

/-! ### Text -/

/-- A token of a line. -/
inductive AsmToken
  | name (s : String)
  | sym (c : Char)
deriving DecidableEq, Repr

/-- The characters of mnemonics, keywords and numbers. -/
def isNameChar (c : Char) : Bool := c.isAlphanum || c == '.' || c == '#' || c == '-'

/-- The token of the name characters read so far, latest first. -/
def flushName : List Char → List AsmToken
  | [] => []
  | acc => [.name (String.ofList acc.reverse)]

/-- The tokens of a line, up to its comment. -/
def lexLine : List Char → List Char → List AsmToken
  | [], acc => flushName acc
  | c :: cs, acc =>
      if c = ';' then flushName acc
      else if isNameChar c then lexLine cs (c :: acc)
      else if c = ' ' then flushName acc ++ lexLine cs []
      else flushName acc ++ .sym c :: lexLine cs []

/-- The digits of R79's numbers, each at the index that is its value. -/
def numberDigits : List Char := "0123456789ABCDEF".toList

/-- The value of a digit below `base`, a hex digit in capitals or small letters. -/
def digitValue (base : Nat) (c : Char) : Option Nat := (numberDigits.take base).idxOf? c.toUpper

/-- A natural number written in `base`, at least one digit. -/
def readNat (base : Nat) (cs : List Char) : Option Nat :=
  if cs.isEmpty then none
  else cs.foldlM (fun n c => (digitValue base c).map (base * n + ·)) 0

/-- A decimal integer, with a minus sign or without one. -/
def readInt : List Char → Option Int
  | '-' :: cs => (readNat 10 cs).map fun n => -(n : Int)
  | cs => (readNat 10 cs).map Int.ofNat

/-- A raw selector `#n`, n in 0..15. -/
def readRawSel : List Char → Option (Fin 16)
  | '#' :: cs => (readNat 10 cs).bind fun n => if h : n < 16 then some ⟨n, h⟩ else none
  | _ => none

/-- The mode operand: a keyword or a raw selector. -/
def readMode (s : String) : Option (Fin 16) :=
  if s = "COOL" then some (selOfMode .cool)
  else if s = "HEAT" then some (selOfMode .heat)
  else if s = "DRY" then some (selOfMode .dry)
  else if s = "FANONLY" then some (selOfMode .fanOnly)
  else if s = "AUTO" then some (selOfMode .auto)
  else readRawSel s.toList

/-- The fan operand: a keyword or a raw selector. -/
def readFan (s : String) : Option (Fin 16) :=
  if s = "AUTO" then some (selOfFan .auto)
  else if s = "LOW" then some (selOfFan .low)
  else if s = "MEDIUM" then some (selOfFan .medium)
  else if s = "HIGH" then some (selOfFan .high)
  else readRawSel s.toList

/-- The pwr operand. -/
def readPower (s : String) : Option Bool :=
  if s = "ON" then some true else if s = "OFF" then some false else none

/-- The temp operand, an integer in -128..127. -/
def readTemp (s : String) : Option Int :=
  (readInt s.toList).filter fun t => decide (TempFits t)

/-- A byte in hex. -/
def readByte (s : String) : Option Byte :=
  ((readNat 16 s.toList).filter (· < 256)).map (BitVec.ofNat 8)

/-- A duration in decimal microseconds that a port can carry. -/
def readDuration (s : String) : Option (BitVec 32) :=
  ((readNat 10 s.toList).filter (· < 2 ^ 32)).map (BitVec.ofNat 32)

/-- A raw command word, `0x` and eight hex digits. -/
def readWord (s : String) : Option Word :=
  match s.toList with
  | '0' :: 'x' :: cs => if cs.length = 8 then (readNat 16 cs).map (BitVec.ofNat 32) else none
  | _ => none

/-- Comma-separated items up to the end of the line or to `close`, where the line must end. -/
def readItems {α : Type} (close : Option AsmToken)
    (item : List AsmToken → Option (List α × List AsmToken)) : Nat → List AsmToken → Option (List α)
  | 0, _ => none
  | fuel + 1, ts =>
      (item ts).bind fun r =>
        if r.2 = close.toList then some r.1
        else if r.2.head? = some (.sym ',') then
          (readItems close item fuel r.2.tail).map (r.1 ++ ·)
        else none

/-- One `name=value` operand. -/
def readOperand : List AsmToken → Option (List (String × String) × List AsmToken)
  | .name k :: .sym '=' :: .name v :: rest => some ([(k, v)], rest)
  | _ => none

/-- One byte of a `pin=` list. -/
def readByteItem : List AsmToken → Option (List Byte × List AsmToken)
  | .name b :: rest => (readByte b).map fun b => ([b], rest)
  | _ => none

/-- One pair of a `qin=` list, with `x n` for n copies. -/
def readPairItem : List AsmToken → Option (List Pulse × List AsmToken)
  | .sym '(' :: .name m :: .sym ',' :: .name s :: .sym ')' :: rest =>
      (readDuration m).bind fun m => (readDuration s).bind fun s =>
        match rest with
        | .name x :: .name n :: rest' =>
            if x = "x" then (readNat 10 n.toList).map fun n => (List.replicate n ⟨m, s⟩, rest')
            else none
        | _ => some ([⟨m, s⟩], rest)
  | _ => none

/-- A bracketed list of items, possibly empty. -/
def readList {α : Type} (item : List AsmToken → Option (List α × List AsmToken))
    (ts : List AsmToken) : Option (List α) :=
  match ts with
  | .sym '[' :: rest =>
      if rest = [.sym ']'] then some [] else readItems (some (.sym ']')) item rest.length rest
  | _ => none

/-- The operand of DECODE and SERIALIZE. -/
def readPin : List AsmToken → Option PinSource
  | .name k :: .sym '=' :: src =>
      if k ≠ "pin" then none
      else if src = [.name "POUT"] then some .pout
      else (readList readByteItem src).map .bytes
  | _ => none

/-- The operand of DESERIALIZE and RECEIVE. -/
def readQin : List AsmToken → Option QinSource
  | .name k :: .sym '=' :: src =>
      if k ≠ "qin" then none
      else if src = [.name "QOUT"] then some .qout
      else (readList readPairItem src).map .pairs
  | _ => none

/-- The four operands of ENCODE and SEND, each named once. -/
def readClimate (ts : List AsmToken) : Option (Bool × Fin 16 × Fin 16 × Int) :=
  (readItems none readOperand ts.length ts).bind fun ops =>
    if ops.length ≠ 4 then none
    else
      ((ops.lookup "pwr").bind readPower).bind fun power =>
      ((ops.lookup "mode").bind readMode).bind fun modeSel =>
      ((ops.lookup "fan").bind readFan).bind fun fanSel =>
      ((ops.lookup "temp").bind readTemp).map fun temp => (power, modeSel, fanSel, temp)

/-- A line from its tokens. -/
def readLine : List AsmToken → Option AsmLine
  | .name op :: ts =>
      if op = "ENCODE" then (readClimate ts).map fun c => .encode c.1 c.2.1 c.2.2.1 c.2.2.2
      else if op = "SEND" then (readClimate ts).map fun c => .send c.1 c.2.1 c.2.2.1 c.2.2.2
      else if op = "DECODE" then (readPin ts).map .decode
      else if op = "SERIALIZE" then (readPin ts).map .serialize
      else if op = "DESERIALIZE" then (readQin ts).map .deserialize
      else if op = "RECEIVE" then (readQin ts).map .receive
      else if op = ".word" then
        match ts with
        | [.name w] => (readWord w).map fun w => .word w (.bytes []) (.pairs [])
        | _ => none
      else none
  | _ => none

/-- A line of assembler text; `none` when it is not one of R79's spellings. DESIGN CHOICE (log entry
13): the text of a comment is not read, so a `.word` line's channels are empty; safe. -/
def parseLine (text : String) : Option AsmLine := readLine (lexLine text.toList [])

end Sys2Proof.Machine
end

