-- ==== Sys2Proof/Machine/Reference.lean ====
section
/-! DEFINITION. The pseudocode of R140 and R150 as the loops the spec writes. No operation calls these:
claims compare the sequencers of Machine/PulseTransport.lean with them. -/

namespace Sys2Proof.Machine

/-- The body of SERIALIZE's loops at byte `i`, bit `j` (R140). -/
def emitBit (p : Payload) (i : Fin 17) (j : Fin 8) : Pulse :=
  if (p[i] >>> j.val) &&& 1#8 = 1#8 then mkPulse bitMark oneSpace else mkPulse bitMark zeroSpace

/-- SERIALIZE on a byte sequence, as R140's two nested loops. -/
def serializeLoops (b : List Byte) : Except Status (List Pulse) :=
  match payloadOfBytes b with
  | none => .error .tooShort
  | some p =>
      .ok (headerPulse :: ((List.finRange 17).flatMap fun i => (List.finRange 8).map (emitBit p i))
        ++ [terminatorPulse])

/-- The body of DESERIALIZE's loops at byte `i`, bit `j` (R150). -/
def readBit (tol : Config.TolPct) (q : List Pulse) (i : Fin 17) (acc : Payload) (j : Fin 8) :
    Except Status Payload :=
  match q[1 + 8 * i.val + j.val]? with
  | none => .error .framingError
  | some p =>
      if !within tol p.mark bitMark then .error .framingError
      else if within tol p.space oneSpace then .ok (acc.set i (acc[i] ||| (1#8 <<< j.val)))
      else if within tol p.space zeroSpace then .ok acc
      else .error .framingError

/-- DESERIALIZE on a pulse sequence, as R150's two nested loops. -/
def deserializeLoops (tol : Config.TolPct) (q : List Pulse) : Except Status Payload :=
  match q[0]? with
  | none => .error .framingError
  | some h =>
      if !(within tol h.mark hdrMark && within tol h.space hdrSpace) then .error .framingError
      else
        (List.finRange 17).foldlM
          (fun acc i => (List.finRange 8).foldlM (fun acc j => readBit tol q i acc j) acc)
          (Vector.replicate 17 0)

end Sys2Proof.Machine
end

