-- ==== Sys2Proof/Safety.lean ====
section
/-! DEFINITION. What claims about the codec speak of: the payload's own relations, the frame grammar, the
captures DESERIALIZE accepts, and the invariant of the states between operations. -/

namespace Sys2Proof.Machine

/-- Bytes 0..4 are the header constant (R81). -/
def HasHeader (p : Payload) : Prop :=
  p[0] = 0x23 ∧ p[1] = 0xCB ∧ p[2] = 0x26 ∧ p[3] = 0x21 ∧ p[4] = 0x00

/-- Bytes 11..16 are the complements of bytes 5..10 (R87). -/
def InverseHolds (p : Payload) : Prop :=
  p[11] = ~~~p[5] ∧ p[12] = ~~~p[6] ∧ p[13] = ~~~p[7] ∧ p[14] = ~~~p[8] ∧ p[15] = ~~~p[9] ∧
    p[16] = ~~~p[10]

/-- The MODE_OF table of DECODE: the MODE selector of an operating-mode nibble, if it has one (R75, R83). -/
def modeSelOfNibble (nibble : Nat) : Option Nat :=
  [some 3, some 0, some 1, some 4, none, some 2].getD nibble none

/-- The FAN_OF table of DECODE: the FAN selector of a fan code, Auto for an unknown one (R76, R117). -/
def fanSelOfCode (code : Nat) : Nat :=
  if code = 0x33 then 1 else if code = 0x35 then 2 else if code = 0x37 then 3 else 0

/-- The temperature ENCODE transmits (R104). -/
def sentTemp (temp : Int) : Int := if 19 ≤ temp ∧ temp ≤ 30 then temp else 19

/-- The frame of a payload, pair by pair: header, bit pairs in wire order, terminator, 138 in all (R91,
R141). -/
structure FrameOf (p : Payload) (q : List Pulse) : Prop where
  length : q.length = 138
  header : q[0]? = some ⟨3060, 1580⟩
  bits : ∀ (i : Fin 17) (j : Fin 8),
    q[1 + 8 * i.val + j.val]? = some ⟨350, if p[i].getLsbD j then 1150 else 390⟩
  terminator : q[137]? = some ⟨350, 0⟩

/-- A capture that carries the payload `p` within the tolerance: the first pair matches the header, and
pair 1 + 8i + j is a bit pair of the value of bit j of byte i (R150, R152 to R154). Pairs after index
136 are not looked at (R156). -/
structure Captures (tol : Config.TolPct) (q : List Pulse) (p : Payload) : Prop where
  header : ∃ h, q[0]? = some h ∧ within tol h.mark 3060 = true ∧ within tol h.space 1580 = true
  bits : ∀ (i : Fin 17) (j : Fin 8), ∃ b, q[1 + 8 * i.val + j.val]? = some b ∧
    within tol b.mark 350 = true ∧
    (if p[i].getLsbD j then within tol b.space 1150 = true
     else within tol b.space 1150 = false ∧ within tol b.space 390 = true)

/-- The layout of a DECODE result word (R77). -/
structure SoutLayout (w : Word) : Prop where
  zeros : w.extractLsb' 0 4 = 0 ∧ w.extractLsb' 5 3 = 0 ∧ w.extractLsb' 24 8 = 0
  mode : (w.extractLsb' 8 4).toNat ≤ 4 ∨ w.extractLsb' 8 4 = 0xF
  offIff : w.extractLsb' 8 4 = 0xF ↔ w.getLsbD 4 = false
  fan : (w.extractLsb' 12 4).toNat ≤ 3
  temp : 16 ≤ (w.extractLsb' 16 8).toNat ∧ (w.extractLsb' 16 8).toNat ≤ 31

/-- The result ports hold no value. -/
def State.NoOutput (s : State) : Prop := s.sout = none ∧ s.pout = none ∧ s.qout = none

/-- Exactly one result port holds a value. -/
def State.OneOutput (s : State) : Prop :=
  (s.sout.isSome ∧ s.pout = none ∧ s.qout = none) ∨ (s.sout = none ∧ s.pout.isSome ∧ s.qout = none) ∨
    (s.sout = none ∧ s.pout = none ∧ s.qout.isSome)

/-- The invariant of the states between operations: the transient datapath is at its start values (R31);
STATUS and the data outputs agree (R25, R184); a DECODE result has the layout of R77; a SERIALIZE result
is the frame of some payload (R91). TOL_PCT is legal by its type (R26). -/
structure State.Inv (s : State) : Prop where
  datapath : s.dp = Datapath.initial
  outputs :
    (s.status = none ∧ s.NoOutput) ∨ (s.status = some Status.ok.word ∧ s.OneOutput) ∨
      (∃ e : Status, e ≠ .ok ∧ s.status = some e.word ∧ s.NoOutput)
  sout : ∀ w, s.sout = some w → SoutLayout w
  qout : ∀ q, s.qout = some q → ∃ p, FrameOf p q

end Sys2Proof.Machine
end

