-- ==== Sys2Proof/Certificates/Slice0/Obligations.lean ====
section
/-! DEFINITION. The statements about the codec, for the provers. A next state is written out as the
state before it with the fields that change, so that every such equality is the operation's frame as
well. In them `dp := Datapath.initial` is log entry 4: the transient datapath is back at the values of
R31 when an operation has ended. That such an equality keeps `inputs` is about the model's own list of
the host's actions (log entry 5). -/

open Sys2Proof Sys2Proof.Machine

/-! ### Command words -/

/-- Words written out from R70 and R71 decode to the operations they stand for. -/
def Obligations.CommandWordsDecode : Prop :=
  decodeCmd 0x00162010#32 = .ok (.encode true 0 2 22) ∧
  decodeCmd 0x00FB2010#32 = .ok (.encode true 0 2 (-5)) ∧
  decodeCmd 0x0064FF00#32 = .ok (.encode false 15 15 100) ∧
  decodeCmd 1#32 = .ok .decode ∧ decodeCmd 2#32 = .ok .serialize ∧
  decodeCmd 3#32 = .ok .deserialize ∧
  decodeCmd 0x0000000F#32 = .error .reservedOpcode ∧
  decodeCmd 0x00000020#32 = .error .reservedBitSet ∧
  decodeCmd 0x00000011#32 = .error .reservedBitSet

/-- Decoding the encoding of a well-formed instruction gives it back, whatever its operands. -/
def Obligations.DecodeOfEncode : Prop :=
  ∀ i : Instr, i.WellFormed → decodeCmd (encodeCmd i) = .ok i

/-- A word that decodes is the encoding of the instruction it decodes to, which is well formed. -/
def Obligations.EncodeOfDecode : Prop :=
  ∀ (w : Word) (i : Instr), decodeCmd w = .ok i → encodeCmd i = w ∧ i.WellFormed

/-- R72: the illegal words are exactly those with a reserved OP or a reserved bit set. When one reaches
the block it ends with status IllegalCommand (7) and no data output. From a state between operations
nothing else changes but the input ports, which the host drives; from any other state the transient
datapath may change too, but not by what the word or its data channels are, not even a source that
holds no value. -/
def Obligations.IllegalWordOnlySetsStatus : Prop :=
  ∀ s : State, ∃ d : Datapath, (s.Inv → d = s.dp) ∧ ∀ r : Request, r.skipped s = false →
    (((4 ≤ (r.cmd.extractLsb' 0 4).toNat) ∨
        (r.cmd.extractLsb' 0 4 = 0 ∧
          (r.cmd.extractLsb' 5 3 ≠ 0 ∨ r.cmd.extractLsb' 24 8 ≠ 0)) ∨
        (r.cmd.extractLsb' 0 4 ≠ 0 ∧ r.cmd.extractLsb' 4 28 ≠ 0)) ↔
      ∀ i, decodeCmd r.cmd ≠ .ok i) ∧
    ((∀ i, decodeCmd r.cmd ≠ .ok i) →
      act s (.command r) = .next { s with
        cmd := r.cmd, pin := r.pin.value s, qin := r.qin.value s,
        status := some 7#32, sout := none, pout := none, qout := none, dp := d })

/-! ### The step -/

/-- A step takes the oldest of the host's actions; with none to come the block waits (the list is the
model's carrier of the arrival order: log entry 5). -/
def Obligations.StepTakesOldestAction : Prop :=
  (∀ (s : State) (a : HostAction) (rest : List HostAction),
    step { s with inputs := a :: rest } = act { s with inputs := rest } a) ∧
  (∀ s : State, s.inputs = [] → step s = .next s)

/-- A command whose word decodes runs its operation, on the ports as the host drives them. -/
def Obligations.StepRunsDecodedCommand : Prop :=
  ∀ (s : State) (r : Request) (rest : List HostAction) (i : Instr),
    s.inputs = .command r :: rest → r.skipped s = false → decodeCmd r.cmd = .ok i →
    r.missing i s = none →
    step s = exec i { s with
      inputs := rest, cmd := r.cmd, pin := r.pin.value s, qin := r.qin.value s }

/-- The second command of a pseudo-operation is not issued when the operation before it did not end OK
(R96): the step changes nothing but the list of what is to come. -/
def Obligations.StepSkipsAfterError : Prop :=
  ∀ (s : State) (r : Request) (rest : List HostAction),
    s.inputs = .command r :: rest → r.onlyIfOk = true → s.status ≠ some 0#32 →
    step s = .next { s with inputs := rest }

/-- A step never faults, and it is refused exactly when the host asks for an output that holds no value:
by reading that port, or by routing it into a data channel that the command's operation reads. -/
def Obligations.StepRefusedExactlyOnValuelessOutput : Prop :=
  ∀ s : State,
    (∀ f, step s ≠ .fault f) ∧
    ∀ x : Refusal, step s = .refused x ↔
      ∃ p : OutPort, x = .outputHoldsNoValue p ∧
        ((∃ rest, s.inputs = .read p :: rest ∧ s.holds p = false) ∨
          ∃ r rest, s.inputs = .command r :: rest ∧ r.skipped s = false ∧
            ((p = .pout ∧ s.pout = none ∧ r.pin = .pout ∧
                (decodeCmd r.cmd = .ok .decode ∨ decodeCmd r.cmd = .ok .serialize)) ∨
              (p = .qout ∧ s.qout = none ∧ r.qin = .qout ∧ decodeCmd r.cmd = .ok .deserialize)))

/-- R57: reading an output port that holds a value changes nothing, an operation leaves the input ports
it reads as they are, and repeated on the same CMD, PIN, QIN and TOL_PCT it gives the same result. -/
def Obligations.ReadsAndRepeatsChangeNothing : Prop :=
  (∀ (s : State) (p : OutPort), s.holds p = true → s.readPort p = .next s) ∧
  (∀ (i : Instr) (s t : State), exec i s = .next t →
    t.cmd = s.cmd ∧ t.pin = s.pin ∧ t.qin = s.qin ∧
    ∃ u, exec i t = .next u ∧ u.status = t.status ∧ u.sout = t.sout ∧ u.pout = t.pout ∧
      u.qout = t.qout)

/-! ### Reset and instantiation -/

/-- R203, with the values of R31: a reset, in the middle of an operation too, leaves no status, no data
output, ACC, PHASE and K at their start values, and TOL_PCT as it was. -/
def Obligations.ResetLeavesNoResult : Prop :=
  ∀ (s : State) (during : Option Request), ∃ t, act s (.reset during) = .next t ∧
    t.status = none ∧ t.NoOutput ∧ t.dp.acc = Vector.replicate 17 0#8 ∧
    t.dp.phase = .expectHeader ∧ t.dp.k = 0 ∧ t.tolPct = s.tolPct

/-- R205: a TOL_PCT of 50 or more is refused, and at such a value some space lies in both bit
windows. -/
def Obligations.InstantiationRefusesOverlappingWindows : Prop :=
  ∀ n : Nat, 50 ≤ n → instantiate n = .refused (.toleranceOutOfRange n) ∧
    ∃ d : Nat, ((100 - n : Int) * 1150 ≤ 100 * d ∧ (100 * d : Int) ≤ (100 + n) * 1150) ∧
      ((100 - n : Int) * 390 ≤ 100 * d ∧ (100 * d : Int) ≤ (100 + n) * 390)

/-- A TOL_PCT below 50 instantiates the block with it, holding no result (R6, R204; that instantiation
gives the reset state is the model's reading, log entry 8). -/
def Obligations.InstantiationTakesLegalTolerance : Prop :=
  ∀ n : Nat, n < 50 →
    ∃ t, instantiate n = .next t ∧ t.tolPct.val = n ∧ t.status = none ∧ t.NoOutput

/-- R26: TOL_PCT is in 0..49, no step writes it, and no operation but DESERIALIZE reads it. -/
def Obligations.OnlyDeserializeReadsTolerance : Prop :=
  (∀ s : State, s.tolPct.val ≤ 49) ∧
  (∀ s t : State, step s = .next t → t.tolPct = s.tolPct) ∧
  (∀ (i : Instr) (s t : State) (n : Config.TolPct), i ≠ .deserialize → exec i s = .next t →
    exec i { s with tolPct := n } = .next { t with tolPct := n })

/-! ### The invariant -/

/-- The reset state, with the default tolerance, meets the invariant. -/
def Obligations.ResetMeetsInvariant : Prop := State.reset.Inv

/-- From every state that meets the invariant, a step gives a state that meets it. -/
def Obligations.StepKeepsInvariant : Prop :=
  ∀ s t : State, s.Inv → step s = .next t → t.Inv

/-! ### Results and errors of every operation -/

/-- Every operation ends with exactly one status, out of those that are possible for it (R180, R181). -/
def Obligations.EveryOperationEndsWithOneStatus : Prop :=
  ∀ (i : Instr) (s : State), ∃ t, exec i s = .next t ∧
    ∃! st : Status, t.status = some st.word ∧
      match i with
      | .encode _ _ _ _ => st ∈ [Status.ok, .unsupportedMode]
      | .decode => st ∈ [Status.ok, .tooShort, .badHeader, .checksumMismatch, .unknownOperatingMode]
      | .serialize => st ∈ [Status.ok, .tooShort]
      | .deserialize => st ∈ [Status.ok, .framingError]

/-- R78: every operation's STATUS word is that of a status, and such a word holds the status code in
bits [3:0] and 0 in bits [31:4]. -/
def Obligations.StatusWordLayout : Prop :=
  (∀ (i : Instr) (s t : State), exec i s = .next t → ∃ st : Status, t.status = some st.word) ∧
  ∀ st : Status, (st.word.extractLsb' 0 4).toNat = st.code ∧ st.word.extractLsb' 4 28 = 0

/-- R25: an operation writes STATUS and, on status OK, only the one data output the table names for it;
the others hold no value after it. -/
def Obligations.OperationWritesItsOneOutput : Prop :=
  ∀ (i : Instr) (s t : State), exec i s = .next t →
    t.status.isSome ∧ (t.status ≠ some 0#32 → t.NoOutput) ∧
    (t.status = some 0#32 →
      match i with
      | .encode _ _ _ _ => t.sout = none ∧ t.pout.isSome ∧ t.qout = none
      | .decode => t.sout.isSome ∧ t.pout = none ∧ t.qout = none
      | .serialize => t.sout = none ∧ t.pout = none ∧ t.qout.isSome
      | .deserialize => t.sout = none ∧ t.pout.isSome ∧ t.qout = none)

/-- No operation changes the input ports or the configuration (R24, R26, R57), nor the list of the
host's actions to come: an operation does not change which one runs next (R22). That list is the model's
own field (log entry 5). -/
def Obligations.OperationsLeaveInputsAlone : Prop :=
  ∀ (i : Instr) (s t : State), exec i s = .next t →
    t.cmd = s.cmd ∧ t.pin = s.pin ∧ t.qin = s.qin ∧ t.tolPct = s.tolPct ∧ t.inputs = s.inputs

/-- R183: from a state between operations, an operation that fails changes nothing but STATUS and the
validity of the data outputs. -/
def Obligations.ErrorChangesOnlyStatus : Prop :=
  ∀ (i : Instr) (s t : State), s.Inv → exec i s = .next t → t.status ≠ some 0#32 →
    t = { s with status := t.status, sout := none, pout := none, qout := none }

/-- R184: after an error no data output holds a value; reading one is refused; and nothing but an
operation that ends OK makes one hold a value again. -/
def Obligations.ErrorLeavesNothingToRead : Prop :=
  (∀ (i : Instr) (s t : State), exec i s = .next t → t.status ≠ some 0#32 →
    t.NoOutput ∧ ∀ p : OutPort, p ≠ .status → t.readPort p = .refused (.outputHoldsNoValue p)) ∧
  (∀ (s t : State) (a : HostAction), s.NoOutput → act s a = .next t → ¬ t.NoOutput →
    t.status = some 0#32)

/-- R32: an operation's result is a function of its own operands and TOL_PCT alone. Nothing else of the
state, no earlier result and no datapath register, reaches it. -/
def Obligations.ResultDependsOnOperandsOnly : Prop :=
  ∀ (i : Instr) (s s' : State), s.pin = s'.pin → s.qin = s'.qin → s.tolPct = s'.tolPct →
    ∃ t t', exec i s = .next t ∧ exec i s' = .next t' ∧ t.status = t'.status ∧ t.sout = t'.sout ∧
      t.pout = t'.pout ∧ t.qout = t'.qout

/-! ### ENCODE -/

/-- ENCODE that does not fail ends OK and writes the payload of R100, byte by byte; the equality says
that nothing else changes. -/
def Obligations.EncodeWritesPayload : Prop :=
  ∀ (power : Bool) (m f : Fin 16) (temp : Int) (s : State), power = false ∨ m.val ≤ 4 →
    ∃ p : Payload,
      exec (.encode power m f temp) s = .next { s with
        status := some 0#32, sout := none, pout := some p, qout := none, dp := Datapath.initial } ∧
      HasHeader p ∧ InverseHolds p ∧
      p[5] = (if power then 0x40#8 else 0x00#8) ∧
      (p[6].toNat : Int) = (sentTemp temp - 16) * 16 + ([1, 2, 5, 0, 3].getD m.val 0 : Nat) ∧
      p[7].toNat = [0x31, 0x33, 0x35, 0x37].getD f.val 0x31 ∧
      p[8] = 0 ∧ p[9] = 0 ∧ p[10] = 0

/-- R103: with power on, ENCODE writes 0x40 and the selector's mode code, or, on an unrecognized
selector, ends with UnsupportedMode (6) and no payload. -/
def Obligations.EncodeOnMapsOrRejectsMode : Prop :=
  ∀ (m f : Fin 16) (temp : Int) (s : State),
    (m.val ≤ 4 → ∃ t p, exec (.encode true m f temp) s = .next t ∧ t.status = some 0#32 ∧
      t.pout = some p ∧ p[5] = 0x40#8 ∧ (p[6] &&& 0x0F#8).toNat = [1, 2, 5, 0, 3].getD m.val 0) ∧
    (5 ≤ m.val → ∃ d : Datapath, exec (.encode true m f temp) s = .next { s with
      status := some 6#32, sout := none, pout := none, qout := none, dp := d })

/-- R102: with power off, ENCODE ends OK for every selector, writes 0x00 and still the mode code of a
recognized selector, 0x0 for any other. -/
def Obligations.EncodeOffNeverFails : Prop :=
  ∀ (m f : Fin 16) (temp : Int) (s : State), ∃ t p,
    exec (.encode false m f temp) s = .next t ∧ t.status = some 0#32 ∧ t.pout = some p ∧
    p[5] = 0x00#8 ∧ (p[6] &&& 0x0F#8).toNat = [1, 2, 5, 0, 3].getD m.val 0

/-- R104: the transmitted temperature is the requested one within 19..30 and 19 otherwise, not the
nearest bound, with power on or off. -/
def Obligations.EncodeTemperatureFallsBackTo19 : Prop :=
  ∀ (power : Bool) (m f : Fin 16) (temp : Int) (s : State), power = false ∨ m.val ≤ 4 →
    ∃ t p, exec (.encode power m f temp) s = .next t ∧ t.pout = some p ∧
      ((p[6] >>> 4).toNat : Int) + 16 = if 19 ≤ temp ∧ temp ≤ 30 then temp else 19

/-- R106: the fan code, 0x31 for an unrecognized selector, with power on or off. -/
def Obligations.EncodeFanDefaultsToAuto : Prop :=
  ∀ (power : Bool) (m f : Fin 16) (temp : Int) (s : State), power = false ∨ m.val ≤ 4 →
    ∃ t p, exec (.encode power m f temp) s = .next t ∧ t.pout = some p ∧
      p[7] = (if f = 0 then 0x31#8 else if f = 1 then 0x33#8 else if f = 2 then 0x35#8
        else if f = 3 then 0x37#8 else 0x31#8)

/-- R107: bytes 11..16 are the complements of bytes 5..10. -/
def Obligations.EncodeWritesInverseBytes : Prop :=
  ∀ (power : Bool) (m f : Fin 16) (temp : Int) (s : State), power = false ∨ m.val ≤ 4 →
    ∃ t p, exec (.encode power m f temp) s = .next t ∧ t.pout = some p ∧
      ∀ k : Fin 6, p[11 + k.val] = ~~~p[5 + k.val]

/-! ### DECODE -/

/-- DECODE of a payload that passes every check ends OK with the SOUT word of R77, given as a number;
with power off the mode is 0xF whatever the nibble holds (R114). -/
def Obligations.DecodeWritesState : Prop :=
  ∀ (s : State) (p : Payload) (n : Nat), s.pin = p.toList → HasHeader p → InverseHolds p →
    ((p[5] = 0x40#8 ∧ modeSelOfNibble (p[6] &&& 0x0F#8).toNat = some n) ∨ (p[5] ≠ 0x40#8 ∧ n = 0xF)) →
    ∃ w : Word,
      exec .decode s = .next { s with
        status := some 0#32, sout := some w, pout := none, qout := none, dp := Datapath.initial } ∧
      w.toNat = (if p[5] = 0x40#8 then 1 else 0) * 2 ^ 4 + n * 2 ^ 8 +
        fanSelOfCode p[7].toNat * 2 ^ 12 + ((p[6] >>> 4).toNat + 16) * 2 ^ 16

/-- R111: any length but 17 ends with TooShort (2). -/
def Obligations.DecodeRejectsWrongLength : Prop :=
  ∀ s : State, s.pin.length ≠ 17 →
    ∃ d : Datapath, exec .decode s = .next { s with
      status := some 2#32, sout := none, pout := none, qout := none, dp := d }

/-- R112: a wrong byte among 0..4 ends with BadHeader (3), whatever else is wrong with the payload. -/
def Obligations.DecodeRejectsBadHeader : Prop :=
  ∀ (s : State) (p : Payload), s.pin = p.toList → ¬ HasHeader p →
    ∃ d : Datapath, exec .decode s = .next { s with
      status := some 3#32, sout := none, pout := none, qout := none, dp := d }

/-- R113: behind a right header, a broken inverse relation ends with ChecksumMismatch (4), whatever the
power byte and the mode nibble are. -/
def Obligations.DecodeRejectsBrokenInverse : Prop :=
  ∀ (s : State) (p : Payload), s.pin = p.toList → HasHeader p → ¬ InverseHolds p →
    ∃ d : Datapath, exec .decode s = .next { s with
      status := some 4#32, sout := none, pout := none, qout := none, dp := d }

/-- R115: with power on, the nibble names the mode, and a reserved one ends with UnknownOperatingMode
(5). -/
def Obligations.DecodeOnMapsOrRejectsMode : Prop :=
  ∀ (s : State) (p : Payload), s.pin = p.toList → HasHeader p → InverseHolds p → p[5] = 0x40#8 →
    (∀ n, modeSelOfNibble (p[6] &&& 0x0F#8).toNat = some n → ∃ t w, exec .decode s = .next t ∧
      t.status = some 0#32 ∧ t.sout = some w ∧ (w.extractLsb' 8 4).toNat = n) ∧
    (modeSelOfNibble (p[6] &&& 0x0F#8).toNat = none → ∃ d : Datapath, exec .decode s = .next { s with
      status := some 5#32, sout := none, pout := none, qout := none, dp := d })

/-- R185: DECODE reports the first failed check in the order TooShort, BadHeader, ChecksumMismatch,
UnknownOperatingMode. -/
def Obligations.DecodeReportsFirstFailedCheck : Prop :=
  ∀ s : State, ∃ t, exec .decode s = .next t ∧
    (s.pin.length ≠ 17 → t.status = some 2#32) ∧
    ∀ p : Payload, s.pin = p.toList →
      (¬ HasHeader p → t.status = some 3#32) ∧
      (HasHeader p → ¬ InverseHolds p → t.status = some 4#32) ∧
      (HasHeader p → InverseHolds p → p[5] = 0x40#8 →
        modeSelOfNibble (p[6] &&& 0x0F#8).toNat = none → t.status = some 5#32) ∧
      (HasHeader p → InverseHolds p →
        (p[5] = 0x40#8 → modeSelOfNibble (p[6] &&& 0x0F#8).toNat ≠ none) → t.status = some 0#32)

/-- R114, R116, R117: of a payload that DECODE accepts, the result word has power on exactly when byte 5
is 0x40, and mode 0xF when it is not; the temperature of byte 6, unchecked; and the fan of byte 7, Auto
for an unknown code. Temperature and fan are decoded whether power is on or off. -/
def Obligations.DecodeReportsPowerTemperatureFan : Prop :=
  ∀ (s : State) (p : Payload), s.pin = p.toList → HasHeader p → InverseHolds p →
    (p[5] = 0x40#8 → modeSelOfNibble (p[6] &&& 0x0F#8).toNat ≠ none) →
    ∃ t w, exec .decode s = .next t ∧ t.status = some 0#32 ∧ t.sout = some w ∧
      (w.getLsbD 4 = true ↔ p[5] = 0x40#8) ∧ (p[5] ≠ 0x40#8 → w.extractLsb' 8 4 = 0xF) ∧
      (w.extractLsb' 16 8).toNat = (p[6] >>> 4).toNat + 16 ∧
      w.extractLsb' 12 4 = (if p[7] = 0x31#8 then 0#4 else if p[7] = 0x33#8 then 1#4
        else if p[7] = 0x35#8 then 2#4 else if p[7] = 0x37#8 then 3#4 else 0#4)

/-- R118: bytes 8, 9 and 10 reach the result only through the inverse check: two payloads that agree on
bytes 0 to 7, and that both pass it or both fail it, give the same result. -/
def Obligations.DecodeIgnoresReservedBytes : Prop :=
  ∀ (s : State) (p q : Payload), (InverseHolds p ↔ InverseHolds q) →
    (∀ i : Fin 8, p[i.val] = q[i.val]) →
    ∃ t : State, exec .decode { s with pin := p.toList } = .next { t with pin := p.toList } ∧
      exec .decode { s with pin := q.toList } = .next { t with pin := q.toList }

/-- The round-trip law of R109 (its "[derived]" sentence): DECODE of what ENCODE writes ends OK, and
the result word is the ENCODE command word. -/
def Obligations.DecodeOfEncodedState : Prop :=
  ∀ (m f : Fin 16) (temp : Int) (s : State), m.val ≤ 4 → f.val ≤ 3 → 19 ≤ temp → temp ≤ 30 →
    ∃ t p u, exec (.encode true m f temp) s = .next t ∧ t.pout = some p ∧
      exec .decode { t with pin := p.toList } = .next u ∧ u.status = some 0#32 ∧
      u.sout = some (encodeCmd (.encode true m f temp))

/-- "Off round-trip" of R119: for every operand set with power off, DECODE of what ENCODE writes ends
OK with power off and mode Off, the transmitted temperature, and the fan, Auto if unrecognized. -/
def Obligations.DecodeOfEncodedOffState : Prop :=
  ∀ (m f : Fin 16) (temp : Int) (s : State), ∃ t p u w,
    exec (.encode false m f temp) s = .next t ∧ t.pout = some p ∧
    exec .decode { t with pin := p.toList } = .next u ∧ u.status = some 0#32 ∧ u.sout = some w ∧
    (w.toNat : Int) = 0xF * 2 ^ 8 + (if f.val ≤ 3 then f.val else 0 : Nat) * 2 ^ 12 +
      sentTemp temp * 2 ^ 16

/-- "Checksum rejection" of R119: flipping one bit of bytes 5 to 10 of a payload that ENCODE wrote ends
with ChecksumMismatch. -/
def Obligations.FlippedBitIsDetected : Prop :=
  ∀ (power : Bool) (m f : Fin 16) (temp : Int) (s t : State) (p : Payload) (k : Fin 6) (j : Fin 8),
    exec (.encode power m f temp) s = .next t → t.pout = some p →
    ∃ u, exec .decode { t with
        pin := (p.set (5 + k.val) (p[5 + k.val] ^^^ (1#8 <<< j.val))).toList } = .next u ∧
      u.status = some 4#32

/-- "Header rejection" of R119: changing one of bytes 0 to 4 of a payload that ENCODE wrote ends with
BadHeader. -/
def Obligations.ChangedHeaderIsDetected : Prop :=
  ∀ (power : Bool) (m f : Fin 16) (temp : Int) (s t : State) (p : Payload) (i : Fin 5) (b : Byte),
    exec (.encode power m f temp) s = .next t → t.pout = some p → b ≠ p[i.val] →
    ∃ u, exec .decode { t with pin := (p.set i.val b).toList } = .next u ∧ u.status = some 3#32

/-! ### SERIALIZE -/

/-- R142 to R144: SERIALIZE of any 17 bytes ends OK with the frame of those bytes: the header pair, one
pair a bit, least significant bit first, then the terminator. The equality is its frame. -/
def Obligations.SerializeWritesFrame : Prop :=
  ∀ (s : State) (p : Payload), s.pin = p.toList →
    ∃ (q : List Pulse) (d : Datapath),
      exec .serialize s = .next { s with
        status := some 0#32, sout := none, pout := none, qout := some q, dp := d } ∧
      FrameOf p q

/-- SERIALIZE ends with TooShort (2) if the byte sequence's length is not 17, and only then (R140). -/
def Obligations.SerializeRejectsWrongLength : Prop :=
  ∀ s : State,
    (s.pin.length ≠ 17 → exec .serialize s = .next { s with
      status := some 2#32, sout := none, pout := none, qout := none, dp := Datapath.initial }) ∧
    (s.pin.length = 17 → ∃ t, exec .serialize s = .next t ∧ t.status = some 0#32)

/-- The sequencer K gives what the nested loops of R140 give. -/
def Obligations.SerializeAgreesWithLoops : Prop :=
  ∀ s : State, exec .serialize s = .next (match serializeLoops s.pin with
    | .ok q => s.complete (.qout q)
    | .error e => s.raise e)

/-- The air time of a frame (R212): 105 630 microseconds and 760 more for every 1 bit. -/
def Obligations.FrameAirTime : Prop :=
  ∀ (p : Payload) (q : List Pulse), FrameOf p q → airTime q = 105630 + 760 * oneBits p

/-! ### DESERIALIZE -/

/-- R145: the window is closed at both ends and compared exactly, as integers. -/
def Obligations.WithinIsClosedExactWindow : Prop :=
  ∀ (tol : Config.TolPct) (d : BitVec 32) (n : Nat),
    within tol d n = true ↔
      (100 - (tol.val : Int)) * n ≤ 100 * (d.toNat : Int) ∧
        100 * (d.toNat : Int) ≤ (100 + (tol.val : Int)) * n

/-- The bit windows of R146: disjoint for every legal tolerance, so the test order of R154 cannot change
a result, and at 25 % the integer ranges of the table. -/
def Obligations.BitWindowsAreDisjoint : Prop :=
  (∀ (tol : Config.TolPct) (d : BitVec 32), ¬ (within tol d 1150 = true ∧ within tol d 390 = true)) ∧
  (∀ d : BitVec 32,
    (within 25 d 3060 = true ↔ 2295 ≤ d.toNat ∧ d.toNat ≤ 3825) ∧
    (within 25 d 1580 = true ↔ 1185 ≤ d.toNat ∧ d.toNat ≤ 1975) ∧
    (within 25 d 350 = true ↔ 263 ≤ d.toNat ∧ d.toNat ≤ 437) ∧
    (within 25 d 1150 = true ↔ 863 ≤ d.toNat ∧ d.toNat ≤ 1437) ∧
    (within 25 d 390 = true ↔ 293 ≤ d.toNat ∧ d.toNat ≤ 487))

/-- DESERIALIZE of a capture that carries a payload ends OK with that payload, whatever follows pair
136. The equality is its frame. -/
def Obligations.DeserializeRecoversPayload : Prop :=
  ∀ (s : State) (p : Payload), Captures s.tolPct s.qin p →
    exec .deserialize s = .next { s with
      status := some 0#32, sout := none, pout := some p, qout := none, dp := Datapath.initial }

/-- DESERIALIZE of anything else ends with FramingError (1) and no partial payload. -/
def Obligations.DeserializeRejectsEveryOtherSequence : Prop :=
  ∀ s : State, (¬ ∃ p, Captures s.tolPct s.qin p) →
    exec .deserialize s = .next { s with
      status := some 1#32, sout := none, pout := none, qout := none, dp := Datapath.initial }

/-- R152: a first pair whose mark or space is outside its header window ends with FramingError. -/
def Obligations.DeserializeComparesBothHeaderHalves : Prop :=
  ∀ (s : State) (h : Pulse) (rest : List Pulse), s.qin = h :: rest →
    (within s.tolPct h.mark 3060 = false ∨ within s.tolPct h.space 1580 = false) →
    ∃ t, exec .deserialize s = .next t ∧ t.status = some 1#32

/-- A bit pair whose mark is outside the BIT_MARK window, or whose space is in neither bit window, ends
with FramingError, wherever it stands among the 136 (R153, R154). -/
def Obligations.DeserializeRejectsBadBitPair : Prop :=
  ∀ (s : State) (k : Nat) (b : Pulse), 1 ≤ k → k ≤ 136 → s.qin[k]? = some b →
    (within s.tolPct b.mark 350 = false ∨
      (within s.tolPct b.space 1150 = false ∧ within s.tolPct b.space 390 = false)) →
    ∃ t, exec .deserialize s = .next t ∧ t.status = some 1#32

/-- R155: fewer than 137 pairs, none among them, end with FramingError. -/
def Obligations.DeserializeNeeds137Pairs : Prop :=
  ∀ s : State, s.qin.length < 137 →
    ∃ d : Datapath, exec .deserialize s = .next { s with
      status := some 1#32, sout := none, pout := none, qout := none, dp := d }

/-- R156: the pairs after index 136 may be absent or hold anything: the result is the same, and it is OK
with the payload when the 136 bits are complete. -/
def Obligations.DeserializeIgnoresTrailingPairs : Prop :=
  ∀ (s : State) (q q' : List Pulse), 137 ≤ q.length → q.take 137 = q'.take 137 →
    ∃ t : State, exec .deserialize { s with qin := q } = .next { t with qin := q } ∧
      exec .deserialize { s with qin := q' } = .next { t with qin := q' } ∧
      ∀ p, Captures s.tolPct (q.take 137) p → t.status = some 0#32 ∧ t.pout = some p

/-- The last sentence of R151: the grammar machine and the nested loops of R150 give the same result,
for every sequence and every tolerance. -/
def Obligations.GrammarMachineAgreesWithLoops : Prop :=
  ∀ s : State, exec .deserialize s = .next (match deserializeLoops s.tolPct s.qin with
    | .ok p => s.complete (.pout p)
    | .error e => s.raise e)

/-- The pulse round-trip of R158: DESERIALIZE of what SERIALIZE emits for any 17 bytes gives them back,
for every tolerance, whatever pairs follow. -/
def Obligations.DeserializeOfSerialized : Prop :=
  ∀ (s : State) (p : Payload) (trailing : List Pulse), s.pin = p.toList →
    ∃ t q u, exec .serialize s = .next t ∧ t.qout = some q ∧
      exec .deserialize { t with qin := q ++ trailing } = .next u ∧ u.status = some 0#32 ∧
      u.pout = some p

/-- The tolerance boundary of R159: in an otherwise valid sequence a header mark of 3060 decodes, and
one just past the upper end of the window fails. -/
def Obligations.HeaderMarkBoundary : Prop :=
  ∀ (s : State) (p : Payload) (h : Pulse) (rest : List Pulse),
    s.qin = h :: rest → Captures s.tolPct s.qin p →
    (∃ t, exec .deserialize { s with qin := { h with mark := 3060 } :: rest } = .next t ∧
      t.status = some 0#32 ∧ t.pout = some p) ∧
    (∃ t, exec .deserialize { s with qin :=
        { h with mark := BitVec.ofNat 32 (3060 * (100 + s.tolPct.val) / 100 + 1) } :: rest } = .next t ∧
      t.status = some 1#32)

/-! ### The pipelines -/

/-- SEND (R170): UnsupportedMode and no pulses when ENCODE raises it, else OK with 138 pairs. -/
def Obligations.SendOutcome : Prop :=
  ∀ (s : State) (power : Bool) (m f : Fin 16) (temp : Int) (rest : List HostAction), TempFits temp →
    s.inputs = (sendRequests power m f temp).map .command ++ rest →
    ∃ t, core.run 2 s = .next t ∧ t.inputs = rest ∧
      (power = true ∧ 5 ≤ m.val → t.status = some 6#32 ∧ t.NoOutput) ∧
      (power = false ∨ m.val ≤ 4 →
        t.status = some 0#32 ∧ ∃ q, t.qout = some q ∧ q.length = 138 ∧ t.sout = none ∧ t.pout = none)

/-- RECEIVE (R171): FramingError when no payload is recovered, else the status of DECODE on the payload,
which is never TooShort. -/
def Obligations.ReceiveOutcome : Prop :=
  ∀ (s : State) (q : List Pulse) (rest : List HostAction),
    s.inputs = (receiveRequests (.pairs q)).map .command ++ rest →
    ∃ t, core.run 2 s = .next t ∧ t.inputs = rest ∧
      ((¬ ∃ p, Captures s.tolPct q p) → t.status = some 1#32 ∧ t.NoOutput) ∧
      (∀ p, Captures s.tolPct q p →
        ∃ u, exec .decode { s with pin := p.toList } = .next u ∧ t.status = u.status ∧
          t.sout = u.sout ∧ t.pout = none ∧ t.qout = none ∧ t.status ≠ some 2#32)

/-- The last sentence of R171: RECEIVE of SEND's output ends OK with the state SEND was given, for every
tolerance; the four commands are run one after the other. -/
def Obligations.ReceiveOfSentState : Prop :=
  ∀ (s : State) (m f : Fin 16) (temp : Int) (rest : List HostAction),
    m.val ≤ 4 → f.val ≤ 3 → 19 ≤ temp → temp ≤ 30 →
    s.inputs = (sendRequests true m f temp ++ receiveRequests .qout).map .command ++ rest →
    ∃ t, core.run 4 s = .next t ∧ t.inputs = rest ∧ t.status = some 0#32 ∧
      t.sout = some (encodeCmd (.encode true m f temp))

/-! ### The assembler notation -/

/-- The lines of program P1 (95_test_vectors.md) pack into the command words given there (R79). -/
def Obligations.AssemblerPacksProgramP1 : Prop :=
  ["ENCODE      pwr=ON, mode=COOL, fan=MEDIUM, temp=22    ; CMD 0x00162010",
   "SERIALIZE   pin=POUT                                   ; CMD 0x00000002",
   "DESERIALIZE qin=QOUT                                   ; CMD 0x00000003",
   "DECODE      pin=POUT                                   ; CMD 0x00000001"].map
      (fun l => (parseLine l).map AsmLine.requests) =
    [some [⟨0x00162010, .bytes [], .pairs [], false⟩], some [⟨2, .pout, .pairs [], false⟩],
     some [⟨3, .bytes [], .qout, false⟩], some [⟨1, .pout, .pairs [], false⟩]]
end

