-- ==== Sys2Proof/Laws/Decode.lean ====
section
/-! SUPPORT. The fields of a word of the layout that CMD and SOUT share (R70, R77). -/

namespace Sys2Proof

variable (temp : BitVec 8) (fan mode : BitVec 4) (power : Bool) (low : BitVec 4)

/-- Every bit of the word, by its field. -/
theorem wordOfFields_getLsbD (i : Nat) :
    (wordOfFields temp fan mode power low).getLsbD i =
      if i < 4 then low.getLsbD i else if i < 5 then power else if i < 8 then false
      else if i < 12 then mode.getLsbD (i - 8) else if i < 16 then fan.getLsbD (i - 12)
      else if i < 24 then temp.getLsbD (i - 16) else false := by
  unfold wordOfFields
  simp only [BitVec.getLsbD_append, BitVec.getLsbD_zero, BitVec.getLsbD_ofBool]
  simp only [Nat.sub_sub, Nat.reduceAdd]
  split_ifs <;> first | rfl | omega | simp_all

/-- Appending bits below adds them to the shifted number. -/
theorem toNat_append_eq_add {n m : Nat} (x : BitVec n) (y : BitVec m) :
    (x ++ y).toNat = x.toNat * 2 ^ m + y.toNat := by
  rw [BitVec.toNat_append, Nat.shiftLeft_eq, Nat.mul_comm, Nat.two_pow_add_eq_or_of_lt y.isLt]

/-- The word as a number. -/
theorem wordOfFields_toNat :
    (wordOfFields temp fan mode power low).toNat =
      low.toNat + power.toNat * 2 ^ 4 + mode.toNat * 2 ^ 8 + fan.toNat * 2 ^ 12 +
        temp.toNat * 2 ^ 16 := by
  simp only [wordOfFields, toNat_append_eq_add, BitVec.toNat_ofBool, BitVec.toNat_ofNat]
  omega

@[simp] theorem wordOfFields_low : (wordOfFields temp fan mode power low).extractLsb' 0 4 = low :=
  BitVec.eq_of_getLsbD_eq fun i hi => by simp [wordOfFields_getLsbD, hi]

theorem wordOfFields_power : (wordOfFields temp fan mode power low).getLsbD 4 = power := by
  rw [wordOfFields_getLsbD]
  rfl

@[simp] theorem wordOfFields_zeros5 : (wordOfFields temp fan mode power low).extractLsb' 5 3 = 0 :=
  BitVec.eq_of_getLsbD_eq fun i hi => by
    simp only [BitVec.getLsbD_extractLsb', wordOfFields_getLsbD]
    split_ifs <;> simp_all <;> omega

@[simp] theorem wordOfFields_mode : (wordOfFields temp fan mode power low).extractLsb' 8 4 = mode :=
  BitVec.eq_of_getLsbD_eq fun i hi => by
    simp only [BitVec.getLsbD_extractLsb', wordOfFields_getLsbD]
    split_ifs <;> simp_all <;> omega

@[simp] theorem wordOfFields_fan : (wordOfFields temp fan mode power low).extractLsb' 12 4 = fan :=
  BitVec.eq_of_getLsbD_eq fun i hi => by
    simp only [BitVec.getLsbD_extractLsb', wordOfFields_getLsbD]
    split_ifs <;> simp_all <;> omega

@[simp] theorem wordOfFields_temp : (wordOfFields temp fan mode power low).extractLsb' 16 8 = temp :=
  BitVec.eq_of_getLsbD_eq fun i hi => by
    simp only [BitVec.getLsbD_extractLsb', wordOfFields_getLsbD]
    split_ifs <;> simp_all <;> omega

@[simp] theorem wordOfFields_zeros24 :
    (wordOfFields temp fan mode power low).extractLsb' 24 8 = 0 :=
  BitVec.eq_of_getLsbD_eq fun i hi => by
    simp only [BitVec.getLsbD_extractLsb', wordOfFields_getLsbD]
    split_ifs <;> simp_all <;> omega

end Sys2Proof
end

