-- ==== Sys2Proof/Laws/Operands.lean ====
section
/-! SUPPORT. The code tables, the payload's packing and the status codes. -/

namespace Sys2Proof.Machine

/-! ### Code tables -/

@[simp] theorem modeOfSel_selOfMode (m : Mode) : modeOfSel (selOfMode m) = some m := by cases m <;> rfl

@[simp] theorem modeOfCode_modeCode (m : Mode) : modeOfCode (modeCode m) = some m := by cases m <;> rfl

@[simp] theorem fanOfSel_selOfFan (f : Fan) : fanOfSel (selOfFan f) = some f := by cases f <;> rfl

@[simp] theorem fanOfCode_fanCode (f : Fan) : fanOfCode (fanCode f) = f := by cases f <;> rfl

/-- The selectors that name a mode are 0..4 (R75). -/
theorem modeOfSel_isSome (sel : Fin 16) : (modeOfSel sel).isSome ↔ sel.val ≤ 4 := by
  revert sel; decide

/-- A mode code fits a nibble (R83). -/
theorem modeCode_lt (m : Mode) : (modeCode m).toNat < 16 := by cases m <;> decide

/-! ### Status codes -/

/-- Distinct statuses have distinct STATUS words (R180). -/
theorem Status.word_injective {a b : Status} (h : a.word = b.word) : a = b := by
  revert a b; intro a b; cases a <;> cases b <;> decide

@[simp] theorem Status.word_eq_ok (e : Status) : e.word = 0#32 ↔ e = .ok := by
  cases e <;> decide

@[simp] theorem statusOfWord_word (st : Status) : statusOfWord st.word = some st := by
  cases st <;> rfl

/-! ### Byte 6 -/

/-- The temperature ENCODE packs is within 19..30 (R104). -/
theorem encodeTemp_bounds (t : Int) : 19 ≤ encodeTemp t ∧ encodeTemp t ≤ 30 := by
  unfold encodeTemp tempMin tempMax tempFallback
  split <;> omega

/-- The encoded temperature is the one the claims speak of. -/
theorem encodeTemp_eq_sentTemp (t : Int) : (encodeTemp t : Int) = sentTemp t := by
  unfold encodeTemp sentTemp tempMin tempMax tempFallback
  split <;> omega

/-- The two fields of a packed byte 6 (R88), over the temperatures that ENCODE packs. -/
theorem packByte6_fields :
    ∀ t : Fin 32, 16 ≤ t.val → ∀ c : Fin 16,
      byte6Mode (packByte6 t (BitVec.ofNat 8 c)) = BitVec.ofNat 8 c ∧
        byte6Temp (packByte6 t (BitVec.ofNat 8 c)) = t := by
  decide

/-! ### Payloads -/

@[simp] theorem payloadOfBytes_toList (p : Payload) : payloadOfBytes p.toList = some p := by
  rcases p with ⟨a, h⟩
  simp [payloadOfBytes, h]

theorem payloadOfBytes_eq_some {b : List Byte} {p : Payload} :
    payloadOfBytes b = some p ↔ b = p.toList := by
  constructor
  · unfold payloadOfBytes
    split
    · rintro ⟨⟩; simp
    · intro h; cases h
  · rintro rfl; simp

theorem payloadOfBytes_eq_none {b : List Byte} : payloadOfBytes b = none ↔ b.length ≠ 17 := by
  unfold payloadOfBytes
  split <;> simp_all

/-- The header check is the header relation (R81). -/
theorem headerOk_iff (p : Payload) : headerOk p = true ↔ HasHeader p := by
  simp [headerOk, HasHeader, hdr, List.finRange_succ]

/-- The inverse check is the inverse relation (R87). -/
theorem inverseOk_iff (p : Payload) : inverseOk p = true ↔ InverseHolds p := by
  simp [inverseOk, InverseHolds, List.finRange_succ]

end Sys2Proof.Machine
end

