-- ==== Sys2Proof/Laws/State.lean ====
section
/-! SUPPORT. What each named update of the state leaves in each field, so that no proof unfolds a record
update. -/

namespace Sys2Proof.Machine

variable (s : State)

/-! ### begin -/

@[simp] theorem State.begin_cmd : s.begin.cmd = s.cmd := rfl
@[simp] theorem State.begin_pin : s.begin.pin = s.pin := rfl
@[simp] theorem State.begin_qin : s.begin.qin = s.qin := rfl
@[simp] theorem State.begin_status : s.begin.status = s.status := rfl
@[simp] theorem State.begin_sout : s.begin.sout = s.sout := rfl
@[simp] theorem State.begin_pout : s.begin.pout = s.pout := rfl
@[simp] theorem State.begin_qout : s.begin.qout = s.qout := rfl
@[simp] theorem State.begin_dp : s.begin.dp = Datapath.initial := rfl
@[simp] theorem State.begin_tolPct : s.begin.tolPct = s.tolPct := rfl
@[simp] theorem State.begin_inputs : s.begin.inputs = s.inputs := rfl

/-! ### loadPbuf -/

@[simp] theorem State.loadPbuf_cmd (p : Payload) : (s.loadPbuf p).cmd = s.cmd := rfl
@[simp] theorem State.loadPbuf_pin (p : Payload) : (s.loadPbuf p).pin = s.pin := rfl
@[simp] theorem State.loadPbuf_qin (p : Payload) : (s.loadPbuf p).qin = s.qin := rfl
@[simp] theorem State.loadPbuf_status (p : Payload) : (s.loadPbuf p).status = s.status := rfl
@[simp] theorem State.loadPbuf_sout (p : Payload) : (s.loadPbuf p).sout = s.sout := rfl
@[simp] theorem State.loadPbuf_pout (p : Payload) : (s.loadPbuf p).pout = s.pout := rfl
@[simp] theorem State.loadPbuf_qout (p : Payload) : (s.loadPbuf p).qout = s.qout := rfl
@[simp] theorem State.loadPbuf_tolPct (p : Payload) : (s.loadPbuf p).tolPct = s.tolPct := rfl
@[simp] theorem State.loadPbuf_inputs (p : Payload) : (s.loadPbuf p).inputs = s.inputs := rfl
@[simp] theorem State.loadPbuf_dp_acc (p : Payload) : (s.loadPbuf p).dp.acc = s.dp.acc := rfl
@[simp] theorem State.loadPbuf_dp_phase (p : Payload) : (s.loadPbuf p).dp.phase = s.dp.phase := rfl
@[simp] theorem State.loadPbuf_dp_k (p : Payload) : (s.loadPbuf p).dp.k = s.dp.k := rfl
@[simp] theorem State.loadPbuf_dp_pbuf (p : Payload) : (s.loadPbuf p).dp.pbuf = p := rfl

/-! ### complete -/

@[simp] theorem State.complete_cmd (o : Output) : (s.complete o).cmd = s.cmd := by cases o <;> rfl
@[simp] theorem State.complete_pin (o : Output) : (s.complete o).pin = s.pin := by cases o <;> rfl
@[simp] theorem State.complete_qin (o : Output) : (s.complete o).qin = s.qin := by cases o <;> rfl
@[simp] theorem State.complete_status (o : Output) : (s.complete o).status = some Status.ok.word := by cases o <;> rfl
@[simp] theorem State.complete_dp (o : Output) : (s.complete o).dp = Datapath.initial := by cases o <;> rfl
@[simp] theorem State.complete_tolPct (o : Output) : (s.complete o).tolPct = s.tolPct := by cases o <;> rfl
@[simp] theorem State.complete_inputs (o : Output) : (s.complete o).inputs = s.inputs := by cases o <;> rfl
@[simp] theorem State.complete_sout_sout (v : Word) : (s.complete (.sout v)).sout = some v := rfl
@[simp] theorem State.complete_sout_pout (v : Word) : (s.complete (.sout v)).pout = none := rfl
@[simp] theorem State.complete_sout_qout (v : Word) : (s.complete (.sout v)).qout = none := rfl
@[simp] theorem State.complete_pout_sout (v : Payload) : (s.complete (.pout v)).sout = none := rfl
@[simp] theorem State.complete_pout_pout (v : Payload) : (s.complete (.pout v)).pout = some v := rfl
@[simp] theorem State.complete_pout_qout (v : Payload) : (s.complete (.pout v)).qout = none := rfl
@[simp] theorem State.complete_qout_sout (v : List Pulse) : (s.complete (.qout v)).sout = none := rfl
@[simp] theorem State.complete_qout_pout (v : List Pulse) : (s.complete (.qout v)).pout = none := rfl
@[simp] theorem State.complete_qout_qout (v : List Pulse) : (s.complete (.qout v)).qout = some v := rfl

/-! ### raise -/

@[simp] theorem State.raise_cmd (e : Status) : (s.raise e).cmd = s.cmd := rfl
@[simp] theorem State.raise_pin (e : Status) : (s.raise e).pin = s.pin := rfl
@[simp] theorem State.raise_qin (e : Status) : (s.raise e).qin = s.qin := rfl
@[simp] theorem State.raise_status (e : Status) : (s.raise e).status = some e.word := rfl
@[simp] theorem State.raise_sout (e : Status) : (s.raise e).sout = none := rfl
@[simp] theorem State.raise_pout (e : Status) : (s.raise e).pout = none := rfl
@[simp] theorem State.raise_qout (e : Status) : (s.raise e).qout = none := rfl
@[simp] theorem State.raise_dp (e : Status) : (s.raise e).dp = Datapath.initial := rfl
@[simp] theorem State.raise_tolPct (e : Status) : (s.raise e).tolPct = s.tolPct := rfl
@[simp] theorem State.raise_inputs (e : Status) : (s.raise e).inputs = s.inputs := rfl

/-! ### present -/

@[simp] theorem State.present_cmd (r : Request) : (s.present r).cmd = r.cmd := rfl
@[simp] theorem State.present_pin (r : Request) : (s.present r).pin = r.pin.value s := rfl
@[simp] theorem State.present_qin (r : Request) : (s.present r).qin = r.qin.value s := rfl
@[simp] theorem State.present_status (r : Request) : (s.present r).status = s.status := rfl
@[simp] theorem State.present_sout (r : Request) : (s.present r).sout = s.sout := rfl
@[simp] theorem State.present_pout (r : Request) : (s.present r).pout = s.pout := rfl
@[simp] theorem State.present_qout (r : Request) : (s.present r).qout = s.qout := rfl
@[simp] theorem State.present_dp (r : Request) : (s.present r).dp = s.dp := rfl
@[simp] theorem State.present_tolPct (r : Request) : (s.present r).tolPct = s.tolPct := rfl
@[simp] theorem State.present_inputs (r : Request) : (s.present r).inputs = s.inputs := rfl

/-! ### popInputs -/

@[simp] theorem State.popInputs_cmd (rest : List HostAction) : (s.popInputs rest).cmd = s.cmd := rfl
@[simp] theorem State.popInputs_pin (rest : List HostAction) : (s.popInputs rest).pin = s.pin := rfl
@[simp] theorem State.popInputs_qin (rest : List HostAction) : (s.popInputs rest).qin = s.qin := rfl
@[simp] theorem State.popInputs_status (rest : List HostAction) : (s.popInputs rest).status = s.status := rfl
@[simp] theorem State.popInputs_sout (rest : List HostAction) : (s.popInputs rest).sout = s.sout := rfl
@[simp] theorem State.popInputs_pout (rest : List HostAction) : (s.popInputs rest).pout = s.pout := rfl
@[simp] theorem State.popInputs_qout (rest : List HostAction) : (s.popInputs rest).qout = s.qout := rfl
@[simp] theorem State.popInputs_dp (rest : List HostAction) : (s.popInputs rest).dp = s.dp := rfl
@[simp] theorem State.popInputs_tolPct (rest : List HostAction) : (s.popInputs rest).tolPct = s.tolPct := rfl
@[simp] theorem State.popInputs_inputs (rest : List HostAction) : (s.popInputs rest).inputs = rest := rfl

/-! ### pushCommand -/

@[simp] theorem State.pushCommand_cmd (w : Word) : (s.pushCommand w).cmd = s.cmd := rfl
@[simp] theorem State.pushCommand_pin (w : Word) : (s.pushCommand w).pin = s.pin := rfl
@[simp] theorem State.pushCommand_qin (w : Word) : (s.pushCommand w).qin = s.qin := rfl
@[simp] theorem State.pushCommand_status (w : Word) : (s.pushCommand w).status = s.status := rfl
@[simp] theorem State.pushCommand_sout (w : Word) : (s.pushCommand w).sout = s.sout := rfl
@[simp] theorem State.pushCommand_pout (w : Word) : (s.pushCommand w).pout = s.pout := rfl
@[simp] theorem State.pushCommand_qout (w : Word) : (s.pushCommand w).qout = s.qout := rfl
@[simp] theorem State.pushCommand_dp (w : Word) : (s.pushCommand w).dp = s.dp := rfl
@[simp] theorem State.pushCommand_tolPct (w : Word) : (s.pushCommand w).tolPct = s.tolPct := rfl
@[simp] theorem State.pushCommand_inputs (w : Word) :
    (s.pushCommand w).inputs = .command ⟨w, .bytes s.pin, .pairs s.qin, false⟩ :: s.inputs := rfl

/-! ### applyReset -/

@[simp] theorem State.applyReset_status : s.applyReset.status = none := rfl
@[simp] theorem State.applyReset_sout : s.applyReset.sout = none := rfl
@[simp] theorem State.applyReset_pout : s.applyReset.pout = none := rfl
@[simp] theorem State.applyReset_qout : s.applyReset.qout = none := rfl
@[simp] theorem State.applyReset_dp : s.applyReset.dp = Datapath.initial := rfl
@[simp] theorem State.applyReset_tolPct : s.applyReset.tolPct = s.tolPct := rfl
@[simp] theorem State.applyReset_inputs : s.applyReset.inputs = s.inputs := rfl

/-! ### The datapath does not survive an operation -/

@[simp] theorem State.begin_complete (o : Output) : s.begin.complete o = s.complete o := by
  cases o <;> rfl

@[simp] theorem State.begin_raise (e : Status) : s.begin.raise e = s.raise e := rfl

@[simp] theorem State.loadPbuf_complete (p : Payload) (o : Output) :
    (s.loadPbuf p).complete o = s.complete o := by
  cases o <;> rfl

@[simp] theorem State.loadPbuf_raise (p : Payload) (e : Status) :
    (s.loadPbuf p).raise e = s.raise e := rfl

@[simp] theorem State.withDp_complete (d : Datapath) (o : Output) :
    State.complete { s with dp := d } o = s.complete o := by
  cases o <;> rfl

@[simp] theorem State.withDp_raise (d : Datapath) (e : Status) :
    State.raise { s with dp := d } e = s.raise e := rfl

end Sys2Proof.Machine
end

