-- ==== Sys2Proof/Laws/FrameCodec.lean ====
section
/-! SUPPORT. What the Frame Codec's functions answer. -/

namespace Sys2Proof.Machine

/-- The bytes of a payload after its inverse bytes are set: 0..10 as before, 11..16 the complements of
5..10 (R87). -/
theorem setInverse_toList (p : Payload) :
    setInverse p = #v[p[0], p[1], p[2], p[3], p[4], p[5], p[6], p[7], p[8], p[9], p[10],
      ~~~p[5], ~~~p[6], ~~~p[7], ~~~p[8], ~~~p[9], ~~~p[10]] := by
  ext i hi
  simp only [setInverse, List.finRange_succ, List.finRange_zero, List.foldl_cons, List.foldl_map,
    List.foldl_nil]
  interval_cases i <;> simp

/-- The template's bytes (R101). -/
theorem payloadTemplate_bytes :
    payloadTemplate = #v[0x23, 0xCB, 0x26, 0x21, 0x00, 0, 0, 0, 0, 0, 0, 0, 0, 0, 0, 0, 0] := by
  decide

/-- ENCODE's payload, byte by byte, for the mode code `mc` (R100). -/
def encodedPayload (power : Bool) (mc : Byte) (temp : Int) (fanSel : Fin 16) : Payload :=
  let b6 := packByte6 (encodeTemp temp) mc
  let b7 := encodeFanCode fanSel
  #v[0x23, 0xCB, 0x26, 0x21, 0x00, powerByte power, b6, b7, 0, 0, 0,
    ~~~powerByte power, ~~~b6, ~~~b7, 0xFF, 0xFF, 0xFF]

theorem encodePayload_ok {power : Bool} {m : Fin 16} {mc : Byte} (f : Fin 16) (temp : Int)
    (h : encodeModeCode power m = .ok mc) :
    encodePayload power m f temp = .ok (encodedPayload power mc temp f) := by
  simp only [encodePayload, h, setInverse_toList, encodedPayload, Except.ok.injEq]
  apply Vector.ext
  intro i hi
  interval_cases i <;> simp [payloadTemplate_bytes]

theorem encodePayload_error {power : Bool} {m : Fin 16} {e : Status} (f : Fin 16) (temp : Int)
    (h : encodeModeCode power m = .error e) : encodePayload power m f temp = .error e := by
  simp only [encodePayload, h]

/-- The mode code is found, or power is on and the selector is unrecognized (R102, R103). -/
theorem encodeModeCode_cases (power : Bool) (m : Fin 16) :
    (∃ mc : Fin 16, encodeModeCode power m = .ok (BitVec.ofNat 8 mc) ∧
      (power = false ∨ m.val ≤ 4) ∧ mc.val = [1, 2, 5, 0, 3].getD m.val 0) ∨
    (encodeModeCode power m = .error .unsupportedMode ∧ power = true ∧ 5 ≤ m.val) := by
  revert power m; decide

/-- What ENCODE answers: a payload, or UnsupportedMode (R100). -/
theorem execEncode_cases (power : Bool) (m f : Fin 16) (temp : Int) (s : State) :
    (∃ mc : Fin 16, execEncode power m f temp s =
        .next (s.complete (.pout (encodedPayload power (BitVec.ofNat 8 mc) temp f))) ∧
      (power = false ∨ m.val ≤ 4) ∧ mc.val = [1, 2, 5, 0, 3].getD m.val 0) ∨
    (execEncode power m f temp s = .next (s.raise .unsupportedMode) ∧ power = true ∧ 5 ≤ m.val) := by
  rcases encodeModeCode_cases power m with ⟨mc, h, h1, h2⟩ | ⟨h, h1⟩
  · refine .inl ⟨mc, ?_, h1, h2⟩
    simp [execEncode, encodePayload_ok f temp h]
  · refine .inr ⟨?_, h1⟩
    simp [execEncode, encodePayload_error f temp h]

/-- What DECODE's checks answer on 17 bytes. -/
theorem decodePayload_cases (p : Payload) :
    (¬ HasHeader p ∧ decodePayload p = .error .badHeader) ∨
    (HasHeader p ∧ ¬ InverseHolds p ∧ decodePayload p = .error .checksumMismatch) ∨
    (HasHeader p ∧ InverseHolds p ∧ p[5] = 0x40#8 ∧ modeOfCode (byte6Mode p[6]) = none ∧
      decodePayload p = .error .unknownOperatingMode) ∨
    (HasHeader p ∧ InverseHolds p ∧ p[5] = 0x40#8 ∧ ∃ m, modeOfCode (byte6Mode p[6]) = some m ∧
      decodePayload p = .ok ⟨true, some m, byte6Temp p[6], fanOfCode p[7]⟩) ∨
    (HasHeader p ∧ InverseHolds p ∧ p[5] ≠ 0x40#8 ∧
      decodePayload p = .ok ⟨false, none, byte6Temp p[6], fanOfCode p[7]⟩) := by
  by_cases hh : HasHeader p
  swap
  · refine .inl ⟨hh, ?_⟩
    have : headerOk p = false := by simpa using (headerOk_iff p).not.mpr hh
    simp [decodePayload, this]
  have h1 := (headerOk_iff p).mpr hh
  by_cases hi : InverseHolds p
  swap
  · refine .inr (.inl ⟨hh, hi, ?_⟩)
    have : inverseOk p = false := by simpa using (inverseOk_iff p).not.mpr hi
    simp [decodePayload, h1, this]
  have h2 := (inverseOk_iff p).mpr hi
  by_cases hp : p[5] = 0x40#8
  · cases hm : modeOfCode (byte6Mode p[6]) with
    | none => exact .inr (.inr (.inl ⟨hh, hi, hp, rfl, by simp [decodePayload, h1, h2, hp, pwrOn, decodeMode, hm]⟩))
    | some m =>
      exact .inr (.inr (.inr (.inl ⟨hh, hi, hp, m, rfl, by simp [decodePayload, h1, h2, hp, pwrOn, decodeMode, hm]⟩)))
  · exact .inr (.inr (.inr (.inr ⟨hh, hi, hp, by simp [decodePayload, h1, h2, hp, pwrOn, decodeMode]⟩)))

/-- DECODE of 17 bytes, from its checks alone. -/
theorem execDecode_payload {s : State} {p : Payload} (h : s.pin = p.toList) :
    execDecode s = .next (match decodePayload p with
      | .error e => s.raise e
      | .ok d => s.complete (.sout (soutWord d))) := by
  simp only [execDecode, h, payloadOfBytes_toList, State.loadPbuf_dp_pbuf]
  cases decodePayload p <;> simp

/-- DECODE of any other length (R111). -/
theorem execDecode_tooShort {s : State} (h : s.pin.length ≠ 17) :
    execDecode s = .next (s.raise .tooShort) := by
  simp [execDecode, payloadOfBytes_eq_none.mpr h]

end Sys2Proof.Machine
end

