-- ==== Sys2Proof/Laws/PulseTransport.lean ====
section
/-! SUPPORT. What the Pulse Transport's sequencers answer. -/

namespace Sys2Proof.Machine

/-! ### SERIALIZE -/

theorem nextK_val {k : Fin 139} (h : k ≠ kDone) : (nextK k).val = k.val + 1 := by
  have : k.val ≠ 138 := fun e => h (Fin.ext e)
  unfold nextK
  split
  · rfl
  · omega

/-- The sequencer's output from any K: one pair for every K up to 137, in order (R141). -/
theorem emitPairs_getElem? (fuel : Nat) (d : Datapath) (h : 138 ≤ d.k.val + fuel) (n : Nat) :
    (d.emitPairs fuel).2[n]? =
      if hn : d.k.val + n < 138 then some (pairAt d.pbuf ⟨d.k.val + n, by omega⟩) else none := by
  induction fuel generalizing d n with
  | zero => simp only [Datapath.emitPairs]; rw [dif_neg (by omega)]; rfl
  | succ fuel ih =>
    simp only [Datapath.emitPairs]
    split
    · next hk => simp [hk, kDone]
    · next hk =>
      have hv := nextK_val hk
      cases n with
      | zero =>
        have : d.k.val ≠ 138 := fun e => hk (Fin.ext e)
        rw [dif_pos (by omega)]
        simp
      | succ n =>
        rw [List.getElem?_cons_succ, ih _ (by simp only; omega)]
        simp only [hv]
        by_cases hn : d.k.val + (n + 1) < 138
        · rw [dif_pos (by omega), dif_pos hn]; congr 3; omega
        · rw [dif_neg (by omega), dif_neg hn]

/-- The pairs SERIALIZE emits for a payload. -/
def framePulses (p : Payload) : List Pulse :=
  (Datapath.emitPairs { Datapath.initial with pbuf := p } kDone).2

theorem framePulses_getElem? (p : Payload) (n : Nat) :
    (framePulses p)[n]? = if hn : n < 138 then some (pairAt p ⟨n, by omega⟩) else none := by
  have h := emitPairs_getElem? kDone { Datapath.initial with pbuf := p } (by simp [Datapath.initial, kDone]) n
  simpa [framePulses, Datapath.initial] using h

theorem framePulses_length (p : Payload) : (framePulses p).length = 138 := by
  have h137 := framePulses_getElem? p 137
  have h138 := framePulses_getElem? p 138
  rw [dif_pos (by omega)] at h137
  rw [dif_neg (by omega), List.getElem?_eq_none_iff] at h138
  obtain ⟨h, -⟩ := List.getElem?_eq_some_iff.mp h137
  omega

theorem execSerialize_payload {s : State} {p : Payload} (h : s.pin = p.toList) :
    execSerialize s = .next (s.complete (.qout (framePulses p))) := by
  simp only [execSerialize, h, payloadOfBytes_toList, State.withDp_complete, State.loadPbuf_complete,
    State.begin_complete]
  rfl

theorem execSerialize_tooShort {s : State} (h : s.pin.length ≠ 17) :
    execSerialize s = .next (s.raise .tooShort) := by
  simp [execSerialize, payloadOfBytes_eq_none.mpr h]

/-! ### DESERIALIZE -/

/-- The phase when `n` bit pairs have been consumed: bit n in wire order, or Done (R151). -/
def phaseAt (n : Nat) : Phase :=
  if h : n < 136 then .expectBit ⟨n / 8, by omega⟩ ⟨n % 8, by omega⟩ else .done

theorem nextPhase_phaseAt {n : Nat} (h : n < 136) :
    nextPhase ⟨n / 8, by omega⟩ ⟨n % 8, by omega⟩ = phaseAt (n + 1) := by
  simp only [nextPhase, phaseAt]
  split
  · rw [dif_pos (by omega)]
    simp only [Phase.expectBit.injEq, Fin.mk.injEq]
    omega
  · split
    · rw [dif_pos (by omega)]
      simp only [Phase.expectBit.injEq, Fin.ext_iff, Fin.val_zero]
      omega
    · rw [dif_neg (by omega)]

/-- `Done` and `Failed` absorb every later pair (R151). -/
theorem feedAll_absorbed (tol : Config.TolPct) (d : Datapath) (q : List Pulse)
    (h : d.phase = .done ∨ d.phase = .failed) : d.feedAll tol q = d := by
  induction q with
  | nil => rfl
  | cons p q ih =>
    have : d.feed tol p = d := by rcases h with h | h <;> simp [Datapath.feed, h]
    simpa [Datapath.feedAll, this] using ih

theorem feedAll_cons (tol : Config.TolPct) (d : Datapath) (p : Pulse) (q : List Pulse) :
    d.feedAll tol (p :: q) = (d.feed tol p).feedAll tol q := rfl

theorem feedAll_append (tol : Config.TolPct) (d : Datapath) (q q' : List Pulse) :
    d.feedAll tol (q ++ q') = (d.feedAll tol q).feedAll tol q' := List.foldl_append

/-- The bit of a pair, in the terms of the windows (R153, R154). -/
theorem bitOfPulse_eq_some (tol : Config.TolPct) (p : Pulse) (b : Bool) :
    bitOfPulse tol p = some b ↔ within tol p.mark 350 = true ∧
      (if b then within tol p.space 1150 = true
       else within tol p.space 1150 = false ∧ within tol p.space 390 = true) := by
  unfold bitOfPulse bitMark oneSpace zeroSpace
  cases within tol p.mark 350 <;> cases within tol p.space 1150 <;> cases within tol p.space 390 <;>
    cases b <;> simp

/-- Bit `j` of the byte at `i` after one bit is or-ed into ACC. -/
theorem setAccBit_getLsbD (acc : Payload) (i i' : Fin 17) (j j' : Fin 8) :
    (setAccBit acc i j)[i'.val].getLsbD j'.val =
      ((i = i' ∧ j = j') || acc[i'.val].getLsbD j'.val) := by
  unfold setAccBit
  by_cases hi : i = i'
  · subst hi
    simp only [Fin.getElem_fin, Vector.getElem_set_self, BitVec.getLsbD_or, true_and]
    rw [Bool.or_comm]
    congr 1
    revert j j'; decide
  · have : i.val ≠ i'.val := fun e => hi (Fin.ext e)
    simp [hi, Vector.getElem_set_ne, this]

/-- Bit `n` of a payload in wire order, `false` past its end. -/
def wireBit (p : Payload) (n : Nat) : Bool := if h : n < 136 then payloadBit p ⟨n, h⟩ else false

theorem payload_ext_wire {p p' : Payload} (h : ∀ n, n < 136 → wireBit p n = wireBit p' n) : p = p' := by
  ext i hi j hj
  have := h (8 * i + j) (by omega)
  have h1 : (8 * i + j) / 8 = i := by omega
  have h2 : (8 * i + j) % 8 = j := by omega
  simpa [wireBit, payloadBit, show 8 * i + j < 136 by omega, h1, h2, BitVec.getLsbD_eq_getElem, hj] using this

/-- The grammar machine from bit `n` over enough pairs that are all bit pairs: it ends in Done, and ACC
holds the bits read where it held zeros before (R151). -/
theorem feedAll_bits (tol : Config.TolPct) (q : List Pulse) (bit : Nat → Bool) (n : Nat) (d : Datapath)
    (hn : n ≤ 136) (hp : d.phase = phaseAt n) (hz : ∀ k, n ≤ k → wireBit d.acc k = false)
    (hq : ∀ k, n ≤ k → k < 136 → ∃ b, q[k - n]? = some b ∧ bitOfPulse tol b = some (bit k)) :
    (d.feedAll tol q).phase = .done ∧ ∀ k, k < 136 →
      wireBit (d.feedAll tol q).acc k = if k < n then wireBit d.acc k else bit k := by
  induction q generalizing n d with
  | nil =>
    have : n = 136 := by
      by_contra hne
      obtain ⟨b, hb, -⟩ := hq n le_rfl (by omega)
      simp at hb
    subst this
    refine ⟨by simpa [Datapath.feedAll, phaseAt] using hp, fun k hk => by simp [Datapath.feedAll, hk]⟩
  | cons p q ih =>
    by_cases hlt : n < 136
    swap
    · have : n = 136 := by omega
      subst this
      have hd : d.phase = .done := by simpa [phaseAt] using hp
      rw [feedAll_absorbed tol d _ (.inl hd)]
      exact ⟨hd, fun k hk => by simp [hk]⟩
    obtain ⟨b, hb, hbit⟩ := hq n le_rfl hlt
    obtain rfl : p = b := by simpa using hb
    have hp' : d.phase = .expectBit ⟨n / 8, by omega⟩ ⟨n % 8, by omega⟩ := by
      simpa [phaseAt, hlt] using hp
    have hq' : ∀ k, n + 1 ≤ k → k < 136 → ∃ b, q[k - (n + 1)]? = some b ∧
        bitOfPulse tol b = some (bit k) := by
      intro k hk hk'
      obtain ⟨c, hc, hcb⟩ := hq k (by omega) hk'
      refine ⟨c, ?_, hcb⟩
      rw [show k - n = (k - (n + 1)) + 1 by omega, List.getElem?_cons_succ] at hc
      exact hc
    rw [feedAll_cons]
    cases hv : bit n with
    | false =>
      rw [hv] at hbit
      have hf : d.feed tol p = { d with phase := phaseAt (n + 1) } := by
        simp [Datapath.feed, hp', hbit, nextPhase_phaseAt hlt]
      rw [hf]
      obtain ⟨h1, h2⟩ := ih (n + 1) { d with phase := phaseAt (n + 1) } (by omega) rfl
        (fun k hk => hz k (by omega)) hq'
      refine ⟨h1, fun k hk => ?_⟩
      rw [h2 k hk]
      rcases Nat.lt_trichotomy k n with h | h | h
      · simp [h, show k < n + 1 by omega]
      · subst h; simp [hz, hv]
      · simp [show ¬ k < n by omega, show ¬ k < n + 1 by omega]
    | true =>
      rw [hv] at hbit
      have hf : d.feed tol p =
          { d with phase := phaseAt (n + 1), acc := setAccBit d.acc ⟨n / 8, by omega⟩ ⟨n % 8, by omega⟩ } := by
        simp [Datapath.feed, hp', hbit, nextPhase_phaseAt hlt]
      have hset : ∀ k, k < 136 → wireBit (setAccBit d.acc ⟨n / 8, by omega⟩ ⟨n % 8, by omega⟩) k =
          (decide (k = n) || wireBit d.acc k) := by
        intro k hk
        have := setAccBit_getLsbD d.acc ⟨n / 8, by omega⟩ ⟨k / 8, by omega⟩ ⟨n % 8, by omega⟩ ⟨k % 8, by omega⟩
        simp only [wireBit, payloadBit, hk, dif_pos]
        rw [this]
        congr 1
        simp only [Fin.mk.injEq]
        congr 1
        apply propext
        omega
      have hz' : ∀ k, n + 1 ≤ k →
          wireBit (setAccBit d.acc ⟨n / 8, by omega⟩ ⟨n % 8, by omega⟩) k = false := by
        intro k hk
        by_cases hk' : k < 136
        · rw [hset k hk', hz k (by omega)]
          simp only [Bool.or_false, decide_eq_false_iff_not]
          omega
        · simp [wireBit, hk']
      obtain ⟨h1, h2⟩ := ih (n + 1) (d.feed tol p) (by omega) (by rw [hf]) (by rw [hf]; exact hz') hq'
      refine ⟨h1, fun k hk => ?_⟩
      rw [h2 k hk, hf, hset k hk]
      rcases Nat.lt_trichotomy k n with h | h | h
      · simp [h, show k < n + 1 by omega, show ¬ k = n by omega]
      · subst h; simp [hv]
      · simp [show ¬ k < n by omega, show ¬ k < n + 1 by omega]

/-- Where the grammar machine reaches Done from bit `n`, every pair on the way was a bit pair (R151). -/
theorem feedAll_done (tol : Config.TolPct) (q : List Pulse) (n : Nat) (d : Datapath)
    (hn : n ≤ 136) (hp : d.phase = phaseAt n) (h : (d.feedAll tol q).phase = .done) :
    ∀ k, n ≤ k → k < 136 → ∃ b v, q[k - n]? = some b ∧ bitOfPulse tol b = some v := by
  induction q generalizing n d with
  | nil =>
    intro k hk hk'
    have : d.phase = .done := h
    rw [hp, phaseAt, dif_pos (by omega)] at this
    cases this
  | cons p q ih =>
    intro k hk hk'
    have hlt : n < 136 := by omega
    have hp' : d.phase = .expectBit ⟨n / 8, by omega⟩ ⟨n % 8, by omega⟩ := by
      simpa [phaseAt, hlt] using hp
    rw [feedAll_cons] at h
    cases hb : bitOfPulse tol p with
    | none =>
      exfalso
      rw [feedAll_absorbed tol _ _ (.inr (by simp [Datapath.feed, hp', hb]))] at h
      simp [Datapath.feed, hp', hb] at h
    | some v =>
      have hph : (d.feed tol p).phase = phaseAt (n + 1) := by
        cases v <;> simp [Datapath.feed, hp', hb, nextPhase_phaseAt hlt]
      rcases Nat.eq_or_lt_of_le hk with rfl | hlt'
      · exact ⟨p, v, by simp, hb⟩
      · obtain ⟨b, v', hb', hv'⟩ := ih (n + 1) _ (by omega) hph h k (by omega) hk'
        refine ⟨b, v', ?_, hv'⟩
        rw [show k - n = (k - (n + 1)) + 1 by omega, List.getElem?_cons_succ]
        exact hb'

end Sys2Proof.Machine
end

