-- ==== Sys2Proof/Laws/Ops.lean ====
section
/-! SUPPORT. What an operation, and a step, can do: each said once. -/

namespace Sys2Proof.Machine

/-- What DESERIALIZE answers, from its grammar machine (R150). -/
theorem execDeserialize_eq (s : State) :
    execDeserialize s = .next (
      let d := Datapath.initial.feedAll s.tolPct s.qin
      if d.phase = .done then s.complete (.pout d.acc) else s.raise .framingError) := by
  by_cases h : (Datapath.initial.feedAll s.tolPct s.qin).phase = .done
  · rw [if_pos h]; exact if_pos h
  · rw [if_neg h]; exact if_neg h

/-- Every operation ends in one of two ways: it completes with a data output, or it raises an error
status; it never stops. -/
theorem exec_cases (i : Instr) (s : State) :
    (∃ o, exec i s = .next (s.complete o)) ∨ (∃ e, e ≠ .ok ∧ exec i s = .next (s.raise e)) := by
  cases i with
  | encode power m f temp =>
    rcases execEncode_cases power m f temp s with ⟨mc, h, -⟩ | ⟨h, -⟩
    · exact .inl ⟨_, h⟩
    · exact .inr ⟨_, by decide, h⟩
  | decode =>
    by_cases hl : s.pin.length = 17
    · obtain ⟨p, hp⟩ : ∃ p, payloadOfBytes s.pin = some p := by
        cases h : payloadOfBytes s.pin with
        | none => exact absurd hl (payloadOfBytes_eq_none.mp h)
        | some p => exact ⟨p, rfl⟩
      have h := execDecode_payload (payloadOfBytes_eq_some.mp hp)
      rcases decodePayload_cases p with ⟨-, hd⟩ | ⟨-, -, hd⟩ | ⟨-, -, -, -, hd⟩ | ⟨-, -, -, m, -, hd⟩ |
        ⟨-, -, -, hd⟩ <;> rw [hd] at h
      · exact .inr ⟨_, by decide, h⟩
      · exact .inr ⟨_, by decide, h⟩
      · exact .inr ⟨_, by decide, h⟩
      · exact .inl ⟨_, h⟩
      · exact .inl ⟨_, h⟩
    · exact .inr ⟨_, by decide, execDecode_tooShort hl⟩
  | serialize =>
    cases h : payloadOfBytes s.pin with
    | none => exact .inr ⟨_, by decide, execSerialize_tooShort (payloadOfBytes_eq_none.mp h)⟩
    | some p => exact .inl ⟨_, execSerialize_payload (payloadOfBytes_eq_some.mp h)⟩
  | deserialize =>
    have h := execDeserialize_eq s
    by_cases hd : (Datapath.initial.feedAll s.tolPct s.qin).phase = .done
    · exact .inl ⟨_, h.trans (congrArg _ (if_pos hd))⟩
    · exact .inr ⟨.framingError, by decide, h.trans (congrArg _ (if_neg hd))⟩

/-- What a command that reaches the block can do. -/
theorem issue_cases (s : State) (r : Request) :
    (r.skipped s = true ∧ issue s r = .next s) ∨
    (r.skipped s = false ∧ (∃ e, decodeCmd r.cmd = .error e) ∧
      issue s r = .next ((s.present r).raise .illegalCommand)) ∨
    (∃ i p, r.skipped s = false ∧ decodeCmd r.cmd = .ok i ∧ r.missing i s = some p ∧
      issue s r = .refused (.outputHoldsNoValue p)) ∨
    (∃ i, r.skipped s = false ∧ decodeCmd r.cmd = .ok i ∧ r.missing i s = none ∧
      issue s r = exec i (s.present r)) := by
  unfold issue
  cases hs : r.skipped s with
  | true => exact .inl ⟨rfl, rfl⟩
  | false =>
    refine .inr ?_
    cases hd : decodeCmd r.cmd with
    | error e => exact .inl ⟨rfl, ⟨e, rfl⟩, by simp⟩
    | ok i =>
      refine .inr ?_
      cases hm : r.missing i s with
      | some p => exact .inl ⟨i, p, rfl, rfl, hm, by simp [hm]⟩
      | none => exact .inr ⟨i, rfl, rfl, hm, by simp [hm]⟩

/-- A step that answers a next state: it waits, skips, ends an operation with a result or an error
status, reads a port, or resets. -/
theorem step_next_cases {s t : State} (h : step s = .next t) :
    (s.inputs = [] ∧ t = s) ∨
    (∃ r rest, s.inputs = .command r :: rest ∧
      ((r.skipped s = true ∧ t = s.popInputs rest) ∨
        (∃ o, t = ((s.popInputs rest).present r).complete o) ∨
        (∃ e, e ≠ .ok ∧ t = ((s.popInputs rest).present r).raise e))) ∨
    (∃ p rest, s.inputs = .read p :: rest ∧ s.holds p = true ∧ t = s.popInputs rest) ∨
    (∃ d rest, s.inputs = .reset d :: rest ∧ t = (s.popInputs rest).applyReset) := by
  unfold step at h
  cases hi : s.inputs with
  | nil => rw [hi] at h; cases h; exact .inl ⟨rfl, rfl⟩
  | cons a rest =>
    rw [hi] at h
    refine .inr ?_
    cases a with
    | command r =>
      refine .inl ⟨r, rest, rfl, ?_⟩
      rcases issue_cases (s.popInputs rest) r with ⟨hk, hs⟩ | ⟨-, -, hs⟩ | ⟨i, p, -, -, -, hs⟩ | ⟨i, -, -, -, hs⟩ <;>
        simp only [act, hs] at h
      · cases h; exact .inl ⟨hk, rfl⟩
      · cases h; exact .inr (.inr ⟨_, by decide, rfl⟩)
      · cases h
      · rcases exec_cases i ((s.popInputs rest).present r) with ⟨o, ho⟩ | ⟨e, he, ho⟩ <;> rw [ho] at h <;>
          cases h
        · exact .inr (.inl ⟨o, rfl⟩)
        · exact .inr (.inr ⟨e, he, rfl⟩)
    | read p =>
      refine .inr (.inl ⟨p, rest, rfl, ?_⟩)
      simp only [act, State.readPort] at h
      split at h
      · next hh => cases h; exact ⟨hh, rfl⟩
      · cases h
    | reset d =>
      refine .inr (.inr ⟨d, rest, rfl, ?_⟩)
      simp only [act] at h
      cases h; rfl

/-- A run whose first step answers `t` goes on from `t`. -/
theorem run_succ_of_step (M : Host.Core) (n : Nat) {s t : M.State} (h : M.step s = .next t) :
    M.run (n + 1) s = M.run n t := by
  simp only [Host.Core.run, h]

/-- `run_succ_of_step` for this machine, in the names of its own step. -/
theorem core_run_succ (n : Nat) {s t : State} (h : step s = .next t) :
    core.run (n + 1) s = core.run n t := run_succ_of_step core n h

end Sys2Proof.Machine
end

