-- ==== Sys2Proof/Laws/PerInstr.lean ====
section
/-! SUPPORT. A fact about every instruction as syntax, one lemma a constructor. -/

namespace Sys2Proof.Laws.CommandWord

/-- The OP value of an instruction (R71). -/
def opOf : Instr → BitVec 4
  | .encode _ _ _ _ => 0
  | .decode => 1
  | .serialize => 2
  | .deserialize => 3

/-- An instruction's command word holds its OP in bits [3:0] and 0 in the bits that are reserved in
every word, [7:5] and [31:24] (R70, R71). -/
def Statement (i : Instr) : Prop :=
  (encodeCmd i).extractLsb' 0 4 = opOf i ∧ (encodeCmd i).extractLsb' 5 3 = 0 ∧
    (encodeCmd i).extractLsb' 24 8 = 0

theorem encode (power : Bool) (modeSel fanSel : Fin 16) (temp : Int) :
    Statement (.encode power modeSel fanSel temp) := by
  simp [Statement, encodeCmd, opOf]

theorem decode : Statement .decode := by unfold Statement; decide

theorem serialize : Statement .serialize := by unfold Statement; decide

theorem deserialize : Statement .deserialize := by unfold Statement; decide

end Sys2Proof.Laws.CommandWord
end

