-- ==== Sys2Proof/Tests/Slice0.lean ====
section
/-! SUPPORT. Small tests, their expected values taken from spec/ by hand, and for every statement with
hypotheses a concrete case that meets them all (`meets_<statement>`). -/

namespace Sys2Proof.Tests

open Sys2Proof.Machine

/-! ### Samples -/

/-- The payload of R100's example: on, Cool, Medium, 22. -/
def samplePayload : Payload :=
  #v[0x23, 0xCB, 0x26, 0x21, 0x00, 0x40, 0x61, 0x35, 0x00, 0x00, 0x00, 0xBF, 0x9E, 0xCA, 0xFF, 0xFF, 0xFF]

/-- The off frame of 95_test_vectors.md S3. -/
def offPayload : Payload :=
  #v[0x23, 0xCB, 0x26, 0x21, 0x00, 0x00, 0x61, 0x35, 0x00, 0x00, 0x00, 0xFF, 0x9E, 0xCA, 0xFF, 0xFF, 0xFF]

/-- The payload of the source's section 8, with byte 8 = 0x04 (C1). -/
def byte8Payload : Payload :=
  #v[0x23, 0xCB, 0x26, 0x21, 0x00, 0x40, 0x61, 0x35, 0x04, 0x00, 0x00, 0xBF, 0x9E, 0xCA, 0xFB, 0xFF, 0xFF]

/-- Mode nibble 0x4 with power on (95_test_vectors.md 2.2). -/
def nibble4Payload : Payload :=
  #v[0x23, 0xCB, 0x26, 0x21, 0x00, 0x40, 0x64, 0x35, 0x00, 0x00, 0x00, 0xBF, 0x9B, 0xCA, 0xFF, 0xFF, 0xFF]

/-- Byte 6 bit 0 flipped, its inverse not (S5). -/
def flippedPayload : Payload :=
  #v[0x23, 0xCB, 0x26, 0x21, 0x00, 0x40, 0x60, 0x35, 0x00, 0x00, 0x00, 0xBF, 0x9E, 0xCA, 0xFF, 0xFF, 0xFF]

/-- Byte 4 = 0x01 (95_test_vectors.md 2.2). -/
def badHeaderPayload : Payload :=
  #v[0x23, 0xCB, 0x26, 0x21, 0x01, 0x40, 0x61, 0x35, 0x00, 0x00, 0x00, 0xBF, 0x9E, 0xCA, 0xFF, 0xFF, 0xFF]

/-- The reset state with these bytes on PIN. -/
def withPin (p : Payload) : State := { State.reset with pin := p.toList }

/-- A capture of 17 bytes 0xFF, header and 136 one-pairs, no terminator. -/
def onesCapture : List Pulse := ⟨3060, 1580⟩ :: List.replicate 136 ⟨350, 1150⟩

/-- The reset state with that capture on QIN. -/
def withOnes : State := { State.reset with qin := onesCapture }

/-- The reset state with these actions to come. -/
def withInputs (l : List HostAction) : State := { State.reset with inputs := l }

/-- A command with empty data channels. -/
def plain (w : Word) : Request := ⟨w, .bytes [], .pairs [], false⟩

/-! ### Well-formedness and decoding -/

theorem test_temp_128_is_ill_formed : (Instr.encode true 0 0 128).wellFormed = false := by decide

theorem test_temp_below_minus_128_is_ill_formed : (Instr.encode true 0 0 (-129)).wellFormed = false := by
  decide

theorem test_temp_bounds_are_well_formed :
    (Instr.encode true 0 0 127).WellFormed ∧ (Instr.encode true 0 0 (-128)).WellFormed := by decide

/-- [31:24]=0, TEMP=22, FAN=2, MODE=0, [7:5]=0, PWR=1, OP=0 (R70). -/
theorem test_decodes_encode :
    decodeCmd 0b00000000000101100010000000010000#32 = .ok (.encode true 0 2 22) := by decide

/-- TEMP = 0xFB is -5, two's complement (R74). -/
theorem test_decodes_encode_negative_temp :
    decodeCmd 0b00000000111110111001011100000000#32 = .ok (.encode false 7 9 (-5)) := by decide

theorem test_decodes_decode : decodeCmd 0b00000000000000000000000000000001#32 = .ok .decode := by decide

theorem test_decodes_serialize : decodeCmd 0b00000000000000000000000000000010#32 = .ok .serialize := by
  decide

theorem test_decodes_deserialize :
    decodeCmd 0b00000000000000000000000000000011#32 = .ok .deserialize := by decide

/-- 95_test_vectors.md 2.5. -/
theorem test_rejects_illegal_words :
    decodeCmd 0x00000004#32 = .error .reservedOpcode ∧ decodeCmd 0x0000000F#32 = .error .reservedOpcode ∧
    decodeCmd 0x00000011#32 = .error .reservedBitSet ∧ decodeCmd 0x00000020#32 = .error .reservedBitSet ∧
    decodeCmd 0x01162010#32 = .error .reservedBitSet ∧ decodeCmd 0x80000003#32 = .error .reservedBitSet := by
  decide

theorem test_table_words :
    decodeTableWord 32 0 = some (.encode false 0 0 0) ∧ decodeTableWord 32 1 = some .decode ∧
    decodeTableWord 32 2 = some .serialize ∧ decodeTableWord 32 3 = some .deserialize ∧
    decodeTableWord 32 4 = none := by decide

theorem test_encodes_command_word : encodeCmd (.encode true 0 2 22) = 0x00162010#32 := by decide

/-! ### One step each -/

/-- The DECODE, SERIALIZE and DESERIALIZE rows run as the first command after reset, on empty channels. -/
theorem test_table_words_step :
    step (State.reset.withFetchWord 32 1) = .next (State.reset.raise .tooShort |>.present (plain 1)) ∧
    step (State.reset.withFetchWord 32 2) = .next (State.reset.raise .tooShort |>.present (plain 2)) ∧
    step (State.reset.withFetchWord 32 3) = .next (State.reset.raise .framingError |>.present (plain 3)) :=
  ⟨rfl, rfl, rfl⟩

theorem test_encode_example :
    encodePayload true 0 2 22 = .ok samplePayload := by decide

/-- 31 falls back to 19, not 30; unrecognized mode and fan with power off (95_test_vectors.md 2.1, P3). -/
theorem test_encode_off_fallbacks :
    encodePayload false 7 15 100 = .ok #v[0x23, 0xCB, 0x26, 0x21, 0x00, 0x00, 0x30, 0x31, 0x00, 0x00, 0x00,
      0xFF, 0xCF, 0xCE, 0xFF, 0xFF, 0xFF] := by decide

/-- S1: the source's payload decodes to SOUT 0x00162010. -/
theorem test_decode_source_payload :
    execDecode (withPin byte8Payload) =
      .next ((withPin byte8Payload).complete (.sout 0x00162010#32)) := by
  rw [execDecode_payload rfl]; rfl

/-- S3: the off frame decodes to SOUT 0x00162F00. -/
theorem test_decode_off_frame :
    execDecode (withPin offPayload) = .next ((withPin offPayload).complete (.sout 0x00162F00#32)) := by
  rw [execDecode_payload rfl]; rfl

/-- 95_test_vectors.md 2.3: the first pairs of byte 0 = 0x23, and the terminator. -/
theorem test_serialize_pairs :
    [0, 1, 3, 136, 137].map (pairAt samplePayload) =
      [⟨3060, 1580⟩, ⟨350, 1150⟩, ⟨350, 390⟩, ⟨350, 1150⟩, ⟨350, 0⟩] := by decide

/-- 95_test_vectors.md 2.4, windows at 25 and 49. -/
theorem test_window_edges :
    within 25 3825 3060 = true ∧ within 25 3826 3060 = false ∧ within 25 262 350 = false ∧
    within 25 263 350 = true ∧ within 49 581 390 = true ∧ within 49 582 390 = false ∧
    within 49 587 1150 = true ∧ within 49 586 1150 = false := by decide

/-- R151: the header, then a 1 and a 0 of byte 0, then a pair in the gap between the bit windows. -/
theorem test_grammar_machine :
    let d := Datapath.initial.feedAll 25 [⟨3060, 1580⟩, ⟨350, 1150⟩, ⟨350, 390⟩]
    d.phase = .expectBit 0 2 ∧ d.acc[0] = 0x01 ∧ (d.feed 25 ⟨350, 862⟩).phase = .failed := by decide

/-- 17 bytes 0xFF are 136 one-pairs (R140's corner case), and DESERIALIZE needs no terminator (R156). -/
theorem test_deserialize_ones :
    Datapath.initial.feedAll 25 onesCapture =
      { Datapath.initial with phase := .done, acc := Vector.replicate 17 0xFF } := by
  decide +kernel

theorem test_pair_order_of_bytes : nextPhase 3 7 = .expectBit 4 0 ∧ nextPhase 16 7 = .done := by decide

/-- P2 and P4 of 95_test_vectors.md, as text. -/
theorem test_assembler_lines :
    parseLine "DESERIALIZE qin=[(9000,4500), (560,560) x 2, (560,0)]   ; CMD 0x00000003, 34 pairs" =
      some (.deserialize (.pairs [⟨9000, 4500⟩, ⟨560, 560⟩, ⟨560, 560⟩, ⟨560, 0⟩])) ∧
    parseLine ".word 0x00000004          ; reserved OP" = some (.word 4 (.bytes []) (.pairs [])) ∧
    parseLine "ENCODE pwr=ON, mode=#15, fan=AUTO, temp=22" = some (.encode true 15 0 22) ∧
    parseLine "DECODE pin=[23, CB]" = some (.decode (.bytes [0x23, 0xCB])) := by decide

theorem test_assembler_refuses_bad_operands :
    parseLine "ENCODE pwr=ON, mode=#16, fan=AUTO, temp=22" = none ∧
    parseLine "ENCODE pwr=ON, mode=COOL, fan=AUTO, temp=128" = none := by decide

/-! ### Cases that meet the hypotheses of the statements -/

theorem meets_DecodeOfEncode : (Instr.encode false 15 15 (-128)).WellFormed := by decide

theorem meets_EncodeOfDecode : decodeCmd 0x0064FF00#32 = .ok (.encode false 15 15 100) := by decide

/-- Both clauses: illegal words of each kind, at the ends of the reserved ranges, with channels that name
outputs holding no value. -/
theorem meets_IllegalWordOnlySetsStatus :
    State.reset.Inv ∧ (Request.mk 4 .pout .qout false).skipped State.reset = false ∧
    (∀ w ∈ [4#32, 0xF#32, 0x20#32, 0x80#32, 0x01000000#32, 0x80000000#32, 0x11#32, 0x80000003#32],
      ∀ i, decodeCmd w ≠ .ok i) := by
  refine ⟨⟨rfl, .inl ⟨rfl, rfl, rfl, rfl⟩, (fun _ h => nomatch h), (fun _ h => nomatch h)⟩, rfl, ?_⟩
  intro w hw i
  fin_cases hw <;> simp [decodeCmd, cmdOp, checkReserved, encodeReserved, dataReserved]

theorem meets_StepRunsDecodedCommand :
    (withInputs [.command (plain 1)]).inputs = .command (plain 1) :: [] ∧
    (plain 1).skipped (withInputs [.command (plain 1)]) = false ∧ decodeCmd (plain 1).cmd = .ok .decode ∧
    (plain 1).missing .decode (withInputs [.command (plain 1)]) = none := by decide

theorem meets_StepSkipsAfterError :
    (withInputs [.command ⟨2, .pout, .pairs [], true⟩]).inputs =
      .command ⟨2, .pout, .pairs [], true⟩ :: [] ∧
    (withInputs [.command ⟨2, .pout, .pairs [], true⟩]).status ≠ some 0#32 := by decide

/-- A refused read and a refused routing after reset. -/
theorem meets_StepRefusedExactlyOnValuelessOutput :
    step (withInputs [.read .sout]) = .refused (.outputHoldsNoValue .sout) ∧
    step (withInputs [.command ⟨1, .pout, .pairs [], false⟩]) = .refused (.outputHoldsNoValue .pout) ∧
    step (withInputs [.command ⟨3, .bytes [], .qout, false⟩]) = .refused (.outputHoldsNoValue .qout) :=
  ⟨rfl, rfl, rfl⟩

theorem meets_StepTakesOldestAction : State.reset.inputs = [] := rfl

theorem meets_ReadsAndRepeatsChangeNothing :
    (State.reset.raise .tooShort).holds .status = true ∧
    exec .decode State.reset = .next (State.reset.raise .tooShort) := ⟨rfl, rfl⟩

theorem meets_InstantiationRefusesOverlappingWindows :
    50 ≤ 50 ∧ instantiate 50 = .refused (.toleranceOutOfRange 50) := ⟨by decide, rfl⟩

theorem meets_InstantiationTakesLegalTolerance :
    49 < 50 ∧ instantiate 49 = .next { State.reset with tolPct := 49 } := ⟨by decide, rfl⟩

theorem meets_OnlyDeserializeReadsTolerance :
    step (withInputs [.reset none]) = .next State.reset ∧
    exec .decode State.reset = .next (State.reset.raise .tooShort) := ⟨rfl, rfl⟩

theorem meets_StepKeepsInvariant :
    (withInputs [.command (plain 1)]).Inv ∧
    step (withInputs [.command (plain 1)]) = .next ((State.reset.present (plain 1)).raise .tooShort) :=
  ⟨⟨rfl, .inl ⟨rfl, rfl, rfl, rfl⟩, (fun _ h => nomatch h), (fun _ h => nomatch h)⟩, rfl⟩

/-- An OK and an error, which OperationWritesItsOneOutput and OperationsLeaveInputsAlone speak of. -/
theorem meets_OperationWritesItsOneOutput :
    exec .decode (withPin offPayload) = .next ((withPin offPayload).complete (.sout 0x00162F00#32)) ∧
    exec .decode State.reset = .next (State.reset.raise .tooShort) := ⟨test_decode_off_frame, rfl⟩

theorem meets_OperationsLeaveInputsAlone :
    exec .serialize (withPin samplePayload) =
      .next ((withPin samplePayload).complete (.qout (framePulses samplePayload))) :=
  execSerialize_payload (s := withPin samplePayload) rfl

theorem meets_ErrorChangesOnlyStatus :
    (State.reset.raise .badHeader).Inv ∧
    exec .deserialize (State.reset.raise .badHeader) = .next (State.reset.raise .framingError) ∧
    (State.reset.raise .framingError).status ≠ some 0#32 :=
  ⟨⟨rfl, .inr (.inr ⟨.badHeader, by decide, rfl, rfl, rfl, rfl⟩), (fun _ h => nomatch h), (fun _ h => nomatch h)⟩, rfl, by decide⟩

theorem meets_ErrorLeavesNothingToRead :
    exec .decode State.reset = .next (State.reset.raise .tooShort) ∧
    (State.reset.raise .tooShort).status ≠ some 0#32 ∧ OutPort.sout ≠ .status ∧
    ∃ (s t : State) (a : HostAction), s.NoOutput ∧ act s a = .next t ∧ ¬ t.NoOutput :=
  ⟨rfl, by decide, by decide, State.reset,
    (State.reset.present (plain 0)).complete (.pout (encodedPayload false 0x1 0 0)), .command (plain 0), ⟨rfl, rfl, rfl⟩,
    rfl, (fun h => nomatch h.2.1)⟩

theorem meets_ResultDependsOnOperandsOnly :
    State.reset ≠ State.reset.raise .badHeader ∧ State.reset.pin = (State.reset.raise .badHeader).pin ∧
    State.reset.qin = (State.reset.raise .badHeader).qin ∧
    State.reset.tolPct = (State.reset.raise .badHeader).tolPct :=
  ⟨(fun h => nomatch congrArg State.status h), rfl, rfl, rfl⟩

theorem meets_StatusWordLayout :
    exec .decode State.reset = .next (State.reset.raise .tooShort) := rfl

/-- The guard of the ENCODE statements that write a payload, power off and on, at the boundaries. -/
theorem meets_EncodeWritesPayload :
    (false = false ∨ (15 : Fin 16).val ≤ 4) ∧ (true = false ∨ (4 : Fin 16).val ≤ 4) := by decide

/-- Both clauses, where they meet. -/
theorem meets_EncodeOnMapsOrRejectsMode : (4 : Fin 16).val ≤ 4 ∧ 5 ≤ (5 : Fin 16).val := by decide

theorem meets_EncodeTemperatureFallsBackTo19 :
    (false = false ∨ (15 : Fin 16).val ≤ 4) ∧ (true = false ∨ (4 : Fin 16).val ≤ 4) :=
  meets_EncodeWritesPayload

theorem meets_EncodeFanDefaultsToAuto :
    (false = false ∨ (15 : Fin 16).val ≤ 4) ∧ (true = false ∨ (4 : Fin 16).val ≤ 4) :=
  meets_EncodeWritesPayload

theorem meets_EncodeWritesInverseBytes :
    (false = false ∨ (15 : Fin 16).val ≤ 4) ∧ (true = false ∨ (4 : Fin 16).val ≤ 4) :=
  meets_EncodeWritesPayload

theorem meets_DecodeWritesState :
    (withPin samplePayload).pin = samplePayload.toList ∧ HasHeader samplePayload ∧
    InverseHolds samplePayload ∧ samplePayload[5] = 0x40#8 ∧
    modeSelOfNibble (samplePayload[6] &&& 0x0F#8).toNat = some 0 ∧
    HasHeader offPayload ∧ InverseHolds offPayload ∧ offPayload[5] ≠ 0x40#8 :=
  ⟨rfl, by unfold HasHeader; decide, by unfold InverseHolds; decide, by decide, by decide,
    by unfold HasHeader; decide, by unfold InverseHolds; decide, by decide⟩

/-- On and off: the premises of DecodeReportsPowerTemperatureFan. -/
theorem meets_DecodeReportsPowerTemperatureFan :
    HasHeader byte8Payload ∧ InverseHolds byte8Payload ∧
    modeSelOfNibble (byte8Payload[6] &&& 0x0F#8).toNat ≠ none ∧ offPayload[5] ≠ 0x40#8 :=
  ⟨by unfold HasHeader; decide, by unfold InverseHolds; decide, by decide, by decide⟩

theorem meets_DecodeRejectsWrongLength : State.reset.pin.length ≠ 17 := by decide

theorem meets_DecodeRejectsBadHeader :
    (withPin badHeaderPayload).pin = badHeaderPayload.toList ∧ ¬ HasHeader badHeaderPayload :=
  ⟨rfl, by unfold HasHeader; decide⟩

theorem meets_DecodeRejectsBrokenInverse :
    (withPin flippedPayload).pin = flippedPayload.toList ∧ HasHeader flippedPayload ∧
    ¬ InverseHolds flippedPayload :=
  ⟨rfl, by unfold HasHeader; decide, by unfold InverseHolds; decide⟩

/-- The clause with a mode is met by `meets_DecodeWritesState`; this one has a reserved nibble. -/
theorem meets_DecodeOnMapsOrRejectsMode :
    (withPin nibble4Payload).pin = nibble4Payload.toList ∧ HasHeader nibble4Payload ∧
    InverseHolds nibble4Payload ∧ nibble4Payload[5] = 0x40#8 ∧
    modeSelOfNibble (nibble4Payload[6] &&& 0x0F#8).toNat = none :=
  ⟨rfl, by unfold HasHeader; decide, by unfold InverseHolds; decide, by decide, by decide⟩

/-- The premises of DecodeReportsFirstFailedCheck's clauses are those of the five theorems above. -/
theorem meets_DecodeReportsFirstFailedCheck :
    (withPin nibble4Payload).pin.length = 17 ∧ State.reset.pin.length ≠ 17 := by decide

/-- Two payloads that pass the inverse check, and two that fail it. -/
theorem meets_DecodeIgnoresReservedBytes :
    ((InverseHolds samplePayload ↔ InverseHolds byte8Payload) ∧
      ∀ i : Fin 8, samplePayload[i.val] = byte8Payload[i.val]) ∧
    ((InverseHolds flippedPayload ↔ InverseHolds (flippedPayload.set 8 1)) ∧
      ∀ i : Fin 8, flippedPayload[i.val] = (flippedPayload.set 8 1)[i.val]) ∧
    InverseHolds samplePayload ∧ ¬ InverseHolds flippedPayload :=
  ⟨⟨by unfold InverseHolds; decide, by decide⟩, ⟨by unfold InverseHolds; decide, by decide⟩,
    by unfold InverseHolds; decide, by unfold InverseHolds; decide⟩

theorem meets_DecodeOfEncodedState :
    (4 : Fin 16).val ≤ 4 ∧ (3 : Fin 16).val ≤ 3 ∧ (19 : Int) ≤ 30 ∧ (30 : Int) ≤ 30 := by decide

theorem meets_FlippedBitIsDetected :
    ∃ t, exec (.encode true 0 2 22) State.reset = .next t ∧ t.pout = some samplePayload :=
  ⟨State.reset.complete (.pout samplePayload), rfl, rfl⟩

theorem meets_ChangedHeaderIsDetected :
    ∃ t, exec (.encode true 0 2 22) State.reset = .next t ∧ t.pout = some samplePayload ∧
      (0x01#8 : Byte) ≠ samplePayload[4] :=
  ⟨State.reset.complete (.pout samplePayload), rfl, rfl, by decide⟩

theorem meets_SerializeWritesFrame : (withPin samplePayload).pin = samplePayload.toList := rfl

theorem meets_SerializeRejectsWrongLength :
    State.reset.pin.length ≠ 17 ∧ (withPin samplePayload).pin.length = 17 := by decide

/-- A frame of a payload, of all zero bytes. -/
theorem meets_FrameAirTime :
    FrameOf (Vector.replicate 17 0)
      (⟨3060, 1580⟩ :: (List.replicate 136 ⟨350, 390⟩ ++ [⟨350, 0⟩])) where
  length := rfl
  header := rfl
  bits i j := by
    rw [show 1 + 8 * i.val + j.val = (8 * i.val + j.val) + 1 by omega, List.getElem?_cons_succ,
      List.getElem?_append_left (by simp; omega), List.getElem?_replicate, if_pos (by omega)]
    simp
  terminator := rfl

/-- A capture that carries a payload, without a terminator. -/
theorem onesCapture_captures (tol : Config.TolPct) :
    Captures tol onesCapture (Vector.replicate 17 0xFF) where
  header := ⟨_, rfl, by revert tol; decide, by revert tol; decide⟩
  bits i j := by
    have hbit : ∀ j : Fin 8, (0xFF#8).getLsbD j = true := by decide
    refine ⟨⟨350, 1150⟩, ?_, by revert tol; decide, ?_⟩
    · rw [show 1 + 8 * i.val + j.val = (8 * i.val + j.val) + 1 by omega, onesCapture,
        List.getElem?_cons_succ, List.getElem?_replicate, if_pos (by omega)]
    · rw [if_pos (by simpa using hbit j)]
      revert tol; decide

theorem meets_DeserializeRecoversPayload :
    Captures withOnes.tolPct withOnes.qin (Vector.replicate 17 0xFF) := onesCapture_captures 25

theorem meets_DeserializeRejectsEveryOtherSequence :
    ¬ ∃ p, Captures State.reset.tolPct State.reset.qin p := by
  rintro ⟨p, h⟩
  obtain ⟨x, hx, -⟩ := h.header
  cases hx

theorem meets_DeserializeComparesBothHeaderHalves :
    ({ State.reset with qin := [⟨3826, 1580⟩] }).qin = ⟨3826, 1580⟩ :: [] ∧ within 25 3826 3060 = false ∧ within 25 1184 1580 = false := ⟨rfl, by decide, by decide⟩

/-- A pair in the gap between the bit windows at index 1, and one with a foreign mark at index 136. -/
theorem meets_DeserializeRejectsBadBitPair :
    (onesCapture.set 1 ⟨350, 862⟩)[1]? = some ⟨350, 862⟩ ∧ within 25 862 1150 = false ∧
    within 25 862 390 = false ∧ (onesCapture.set 136 ⟨0, 1150⟩)[136]? = some ⟨0, 1150⟩ ∧
    within 25 0 350 = false := ⟨rfl, by decide, by decide, rfl, by decide⟩

theorem meets_DeserializeNeeds137Pairs :
    (onesCapture.take 136).length = 136 ∧ State.reset.qin.length < 137 := ⟨rfl, by decide⟩

theorem meets_DeserializeIgnoresTrailingPairs :
    onesCapture.length = 137 ∧
    onesCapture.take 137 = (onesCapture ++ [(⟨9000, 4500⟩ : Pulse)]).take 137 ∧
    Captures State.reset.tolPct (onesCapture.take 137) (Vector.replicate 17 0xFF) :=
  ⟨rfl, rfl, onesCapture_captures 25⟩

theorem meets_DeserializeOfSerialized : (withPin offPayload).pin = offPayload.toList := rfl

theorem meets_HeaderMarkBoundary :
    withOnes.qin = ⟨3060, 1580⟩ :: List.replicate 136 ⟨350, 1150⟩ ∧
    Captures withOnes.tolPct withOnes.qin (Vector.replicate 17 0xFF) := ⟨rfl, onesCapture_captures 25⟩

/-- Both clauses: an unrecognized mode with power on, and the last recognized one. -/
theorem meets_SendOutcome :
    TempFits (-128) ∧ 5 ≤ (5 : Fin 16).val ∧ (4 : Fin 16).val ≤ 4 ∧
    (withInputs ((sendRequests true 5 0 (-128)).map .command)).inputs =
      (sendRequests true 5 0 (-128)).map .command ++ [] := ⟨by decide, by decide, by decide, rfl⟩

/-- Both clauses of ReceiveOutcome: a capture with a payload, and one without. -/
theorem meets_ReceiveOutcome :
    (withInputs ((receiveRequests (.pairs onesCapture)).map .command)).inputs =
      (receiveRequests (.pairs onesCapture)).map .command ++ [] ∧
    Captures State.reset.tolPct onesCapture (Vector.replicate 17 0xFF) ∧
    ¬ ∃ p, Captures State.reset.tolPct [] p :=
  ⟨rfl, onesCapture_captures 25, meets_DeserializeRejectsEveryOtherSequence⟩

theorem meets_ReceiveOfSentState :
    (4 : Fin 16).val ≤ 4 ∧ (3 : Fin 16).val ≤ 3 ∧ (19 : Int) ≤ 30 ∧
    (withInputs ((sendRequests true 4 3 30 ++ receiveRequests .qout).map .command)).inputs =
      (sendRequests true 4 3 30 ++ receiveRequests .qout).map .command ++ [] :=
  ⟨by decide, by decide, by decide, rfl⟩

end Sys2Proof.Tests
end

-- The rest of this text: proofs of the statements about the state (10_state.md).
section
/-! SUPPORT. Every operation as a function of its operands and the tolerance, followed by one update of
the state. -/

namespace Sys2Proof.Machine

/-! ### The end of an operation -/

/-- The end of an operation with this result: a data output, or an error status. -/
def State.finish (s : State) : Except Status Output → State
  | .ok o => s.complete o
  | .error e => s.raise e

@[simp] theorem State.finish_ok (s : State) (o : Output) : s.finish (.ok o) = s.complete o := rfl

@[simp] theorem State.finish_error (s : State) (e : Status) : s.finish (.error e) = s.raise e := rfl

/-- The output ports after an operation come from its result alone (R25, R32). -/
theorem State.finish_outputs_eq (s s' : State) (r : Except Status Output) :
    (s.finish r).status = (s'.finish r).status ∧ (s.finish r).sout = (s'.finish r).sout ∧
      (s.finish r).pout = (s'.finish r).pout ∧ (s.finish r).qout = (s'.finish r).qout := by
  cases r with
  | error e => exact ⟨rfl, rfl, rfl, rfl⟩
  | ok o => cases o <;> exact ⟨rfl, rfl, rfl, rfl⟩

/-- Ending an operation and setting the tolerance commute (R26). -/
theorem State.withTolPct_finish (s : State) (n : Config.TolPct) (r : Except Status Output) :
    State.finish { s with tolPct := n } r = { s.finish r with tolPct := n } := by
  cases r with
  | error e => rfl
  | ok o => cases o <;> rfl

/-! ### An operation's result -/

/-- The result of an operation, from the tolerance and its operands: those in the command word, PIN and
QIN (R32). `exec_eq_finish` says that this is what the operation does. -/
def opResult (tol : Config.TolPct) (pin : List Byte) (qin : List Pulse) : Instr → Except Status Output
  | .encode power m f temp => (encodePayload power m f temp).map .pout
  | .decode => (payloadOfBytes pin).elim (.error .tooShort) fun p =>
      (decodePayload p).map fun d => .sout (soutWord d)
  | .serialize => (payloadOfBytes pin).elim (.error .tooShort) fun p => .ok (.qout (framePulses p))
  | .deserialize =>
      let d := Datapath.initial.feedAll tol qin
      if d.phase = .done then .ok (.pout d.acc) else .error .framingError

theorem execEncode_eq_finish (power : Bool) (m f : Fin 16) (temp : Int) (s : State) :
    execEncode power m f temp s =
      .next (s.finish (opResult s.tolPct s.pin s.qin (.encode power m f temp))) := by
  simp only [opResult]
  cases h : encodePayload power m f temp <;> simp [execEncode, h, Except.map]

theorem execDecode_eq_finish (s : State) :
    execDecode s = .next (s.finish (opResult s.tolPct s.pin s.qin .decode)) := by
  simp only [opResult]
  cases hp : payloadOfBytes s.pin with
  | none => exact execDecode_tooShort (payloadOfBytes_eq_none.mp hp)
  | some p =>
    rw [execDecode_payload (payloadOfBytes_eq_some.mp hp)]
    cases hd : decodePayload p <;> simp [hd, Except.map]

theorem execSerialize_eq_finish (s : State) :
    execSerialize s = .next (s.finish (opResult s.tolPct s.pin s.qin .serialize)) := by
  simp only [opResult]
  cases hp : payloadOfBytes s.pin with
  | none => exact execSerialize_tooShort (payloadOfBytes_eq_none.mp hp)
  | some p => exact execSerialize_payload (payloadOfBytes_eq_some.mp hp)

theorem execDeserialize_eq_finish (s : State) :
    execDeserialize s = .next (s.finish (opResult s.tolPct s.pin s.qin .deserialize)) := by
  rw [execDeserialize_eq]
  simp only [opResult, apply_ite s.finish, State.finish_ok, State.finish_error]

/-- Every operation ends the state with its result, and reads nothing of the state but PIN, QIN and the
tolerance to find it (R32). -/
theorem exec_eq_finish (i : Instr) (s : State) :
    exec i s = .next (s.finish (opResult s.tolPct s.pin s.qin i)) := by
  cases i with
  | encode power m f temp => exact execEncode_eq_finish power m f temp s
  | decode => exact execDecode_eq_finish s
  | serialize => exact execSerialize_eq_finish s
  | deserialize => exact execDeserialize_eq_finish s

/-- The tolerance reaches no result but DESERIALIZE's (R26). -/
theorem opResult_eq_of_ne_deserialize {i : Instr} (h : i ≠ .deserialize) (tol tol' : Config.TolPct)
    (pin : List Byte) (qin : List Pulse) : opResult tol pin qin i = opResult tol' pin qin i := by
  cases i with
  | encode power m f temp => rfl
  | decode => rfl
  | serialize => rfl
  | deserialize => exact absurd rfl h

/-! ### The tolerance -/

/-- An operation other than DESERIALIZE takes another tolerance along unread (R26). -/
theorem exec_withTolPct {i : Instr} (hi : i ≠ .deserialize) {s t : State} (h : exec i s = .next t)
    (n : Config.TolPct) : exec i { s with tolPct := n } = .next { t with tolPct := n } := by
  rw [exec_eq_finish] at h ⊢
  cases h
  rw [State.withTolPct_finish, opResult_eq_of_ne_deserialize hi n s.tolPct]

/-- No step writes the tolerance (R26). -/
theorem step_tolPct {s t : State} (h : step s = .next t) : t.tolPct = s.tolPct := by
  rcases step_next_cases h with ⟨-, rfl⟩ | ⟨r, rest, -, ⟨-, rfl⟩ | ⟨o, rfl⟩ | ⟨e, -, rfl⟩⟩ |
    ⟨p, rest, -, -, rfl⟩ | ⟨d, rest, -, rfl⟩ <;> simp

end Sys2Proof.Machine

namespace Sys2Proof.Proofs

open Sys2Proof.Machine

/-- Settles O12: the type of TOL_PCT bounds it, the cases of a step all keep it, and every operation but
DESERIALIZE ends with a result that does not depend on it. -/
theorem onlyDeserializeReadsTolerance : Obligations.OnlyDeserializeReadsTolerance :=
  ⟨fun s => Nat.le_of_lt_succ s.tolPct.isLt, fun _ _ => step_tolPct,
    fun _ _ _ n hi h => exec_withTolPct hi h n⟩

/-- Settles O21: both states end with the same result, and the output ports show the result alone. -/
theorem resultDependsOnOperandsOnly : Obligations.ResultDependsOnOperandsOnly := by
  intro i s s' hpin hqin htol
  refine ⟨_, _, exec_eq_finish i s, exec_eq_finish i s', ?_⟩
  rw [hpin, hqin, htol]
  exact s.finish_outputs_eq s' _

end Sys2Proof.Proofs
end

-- Proofs of the statements about the ports' reads and repeated operations (20_memory.md).
section
/-! SUPPORT. What the end of an operation leaves of the ports it reads, and why a second run of the
operation changes nothing. -/

namespace Sys2Proof.Machine

section Finish

variable (s : State) (r : Except Status Output)

@[simp] theorem State.finish_cmd : (s.finish r).cmd = s.cmd := by cases r <;> simp
@[simp] theorem State.finish_pin : (s.finish r).pin = s.pin := by cases r <;> simp
@[simp] theorem State.finish_qin : (s.finish r).qin = s.qin := by cases r <;> simp
@[simp] theorem State.finish_tolPct : (s.finish r).tolPct = s.tolPct := by cases r <;> simp

/-- A result written a second time changes nothing, its one data output included (R56). -/
@[simp] theorem State.finish_finish : (s.finish r).finish r = s.finish r := by
  cases r with
  | error e => rfl
  | ok o => cases o <;> rfl

end Finish

/-- An operation ends in a state that the same operation maps to itself, in every field: the second run
finds the operands and the tolerance of the first, so it ends with the same result (R57). -/
theorem exec_idempotent {i : Instr} {s t : State} (h : exec i s = .next t) : exec i t = .next t := by
  rw [exec_eq_finish] at h
  cases h
  simp [exec_eq_finish]

/-- A read of an output port that holds a value leaves the state as it is (R57). -/
theorem State.readPort_of_holds {s : State} {p : OutPort} (h : s.holds p = true) :
    s.readPort p = .next s := if_pos h

end Sys2Proof.Machine

namespace Sys2Proof.Proofs

open Sys2Proof.Machine

/-- Settles O9: a read only checks that the port holds a value; an operation's end leaves the input ports
alone, and its second run gives back the whole state the first one left. -/
theorem readsAndRepeatsChangeNothing : Obligations.ReadsAndRepeatsChangeNothing := by
  refine ⟨fun _ _ => State.readPort_of_holds, fun i s t h => ?_⟩
  have repeated : exec i t = .next t := exec_idempotent h
  rw [exec_eq_finish] at h
  cases h
  exact ⟨s.finish_cmd _, s.finish_pin _, s.finish_qin _, _, repeated, rfl, rfl, rfl, rfl⟩

end Sys2Proof.Proofs
end

-- Proofs of the statements about illegal command words and the STATUS word (30_encoding.md).
section
/-! SUPPORT. Which words the decoder rejects, in the terms of the fields of R70. -/

namespace Sys2Proof

/-! ### The reserved bits -/

/-- The word with ones in the `len` bits from bit `start` upward and zeros elsewhere. -/
def fieldMask (start len : Nat) : Word := (BitVec.allOnes len).setWidth 32 <<< start

/-- A word has no bit of a mask set when the field under the mask is 0. -/
theorem and_fieldMask_eq_zero_iff (w : Word) {start len : Nat} (h : start + len ≤ 32) :
    w &&& fieldMask start len = 0 ↔ w.extractLsb' start len = 0 := by
  simp only [BitVec.eq_of_getLsbD_eq_iff, fieldMask, BitVec.getLsbD_and, BitVec.getLsbD_shiftLeft,
    BitVec.getLsbD_setWidth, BitVec.getLsbD_allOnes, BitVec.getLsbD_extractLsb',
    BitVec.ofNat_eq_ofNat, BitVec.getLsbD_zero]
  constructor
  · intro hw i hi
    have hbit := hw (start + i) (by omega)
    simpa [hi, show start + i < 32 by omega, show i < 32 by omega] using hbit
  · intro hw i hi
    by_cases hf : start ≤ i ∧ i < start + len
    · have hbit := hw (i - start) (by omega)
      rw [show start + (i - start) = i by omega, decide_eq_true (by omega), Bool.true_and] at hbit
      simp [hbit]
    · obtain hout | hout : i < start ∨ ¬ i - start < len := by omega
      · simp [hout]
      · simp [hout]

/-- The bits that R70 reserves in an ENCODE word are [7:5] and [31:24]. -/
theorem and_encodeReserved_eq_zero_iff (w : Word) :
    w &&& encodeReserved = 0 ↔ w.extractLsb' 5 3 = 0 ∧ w.extractLsb' 24 8 = 0 := by
  have hmask : encodeReserved = fieldMask 5 3 ||| fieldMask 24 8 := by decide
  rw [hmask, BitVec.and_or_distrib_left, ← and_fieldMask_eq_zero_iff w (by decide),
    ← and_fieldMask_eq_zero_iff w (by decide)]
  exact BitVec.or_eq_zero_iff

/-- The bits that R70 reserves in the words of the other operations are [31:4]. -/
theorem and_dataReserved_eq_zero_iff (w : Word) :
    w &&& dataReserved = 0 ↔ w.extractLsb' 4 28 = 0 := by
  have hmask : dataReserved = fieldMask 4 28 := by decide
  rw [hmask, and_fieldMask_eq_zero_iff w (by decide)]

/-! ### The decoder -/

/-- The reserved bits alone decide whether a word with a known OP is rejected. -/
theorem checkReserved_ne_ok_iff (w reserved : Word) (i : Instr) :
    (∀ j, checkReserved w reserved i ≠ .ok j) ↔ w &&& reserved ≠ 0 := by
  unfold checkReserved
  split
  · next h => exact iff_of_false (fun hj => hj i rfl) (fun hne => hne h)
  · next h => exact iff_of_true (fun _ hj => nomatch hj) h

/-- What the decoder does with a word: the check of its OP's reserved bits, or a rejection of the OP
(R71, R94). -/
theorem decodeCmd_cases (w : Word) :
    (cmdOp w = 0 ∧ decodeCmd w = checkReserved w encodeReserved
      (.encode (cmdPwr w) (cmdMode w) (cmdFan w) (cmdTemp w))) ∨
    (∃ i ∈ [Instr.decode, .serialize, .deserialize], cmdOp w = Laws.CommandWord.opOf i ∧
      decodeCmd w = checkReserved w dataReserved i) ∨
    (4 ≤ (cmdOp w).toNat ∧ decodeCmd w = .error .reservedOpcode) := by
  unfold decodeCmd
  split
  · next h => exact .inl ⟨BitVec.eq_of_toNat_eq h, rfl⟩
  · next h => exact .inr (.inl ⟨.decode, by decide, BitVec.eq_of_toNat_eq h, rfl⟩)
  · next h => exact .inr (.inl ⟨.serialize, by decide, BitVec.eq_of_toNat_eq h, rfl⟩)
  · next h => exact .inr (.inl ⟨.deserialize, by decide, BitVec.eq_of_toNat_eq h, rfl⟩)
  · next h0 h1 h2 h3 =>
    rw [imp_false] at h0 h1 h2 h3
    have hop : 4 ≤ (cmdOp w).toNat := by omega
    exact .inr (.inr ⟨hop, rfl⟩)

/-- The OP of an operation without operands in the word is 1, 2 or 3 (R71). -/
theorem opOf_data {i : Instr} (hi : i ∈ [Instr.decode, .serialize, .deserialize]) :
    Laws.CommandWord.opOf i ≠ 0 ∧ (Laws.CommandWord.opOf i).toNat < 4 := by
  revert i
  decide

/-- A word is illegal when its OP is 0x4..0xF or when it has a bit set that is reserved for its OP
(R70, R72). -/
theorem decodeCmd_ne_ok_iff (w : Word) :
    (∀ i, decodeCmd w ≠ .ok i) ↔
      4 ≤ (cmdOp w).toNat ∨
        (cmdOp w = 0 ∧ (w.extractLsb' 5 3 ≠ 0 ∨ w.extractLsb' 24 8 ≠ 0)) ∨
        (cmdOp w ≠ 0 ∧ w.extractLsb' 4 28 ≠ 0) := by
  rcases decodeCmd_cases w with ⟨hop, hw⟩ | ⟨i, hi, hop, hw⟩ | ⟨hop, hw⟩
  · rw [hw, checkReserved_ne_ok_iff, Ne, and_encodeReserved_eq_zero_iff, not_and_or]
    simp [hop]
  · obtain ⟨hne, hlt⟩ := opOf_data hi
    rw [hw, checkReserved_ne_ok_iff, Ne, and_dataReserved_eq_zero_iff]
    simp only [hop, hne, not_le.mpr hlt, ne_eq, not_false_eq_true, false_and, true_and, false_or]
  · simp [hw, hop]

end Sys2Proof

namespace Sys2Proof.Machine

/-- A command that is issued and whose word is illegal ends with IllegalCommand, whatever its data
channels hold (R72, R186). -/
theorem issue_of_illegal {s : State} {r : Request} (hs : r.skipped s = false)
    (hw : ∀ i, decodeCmd r.cmd ≠ .ok i) :
    issue s r = .next ((s.present r).raise .illegalCommand) := by
  rcases issue_cases s r with ⟨hk, -⟩ | ⟨-, -, h⟩ | ⟨i, p, -, hd, -⟩ | ⟨i, -, hd, -⟩
  · rw [hs] at hk
    cases hk
  · exact h
  · exact absurd hd (hw i)
  · exact absurd hd (hw i)

/-- After an operation STATUS is the word of a status (R78). -/
theorem exec_status_eq_word {i : Instr} {s t : State} (h : exec i s = .next t) :
    ∃ st : Status, t.status = some st.word := by
  rcases exec_cases i s with ⟨o, ho⟩ | ⟨e, -, ho⟩ <;> rw [ho] at h <;> cases h
  · exact ⟨.ok, s.complete_status o⟩
  · exact ⟨e, s.raise_status e⟩

/-- The two fields of a STATUS word (R78). -/
theorem Status.word_fields (st : Status) :
    (st.word.extractLsb' 0 4).toNat = st.code ∧ st.word.extractLsb' 4 28 = 0 := by
  cases st <;> exact ⟨rfl, rfl⟩

end Sys2Proof.Machine

namespace Sys2Proof.Proofs

open Sys2Proof.Machine

/-- Settles O4: the reserved bits of R70 are those that the decoder masks, and a word it rejects raises
IllegalCommand on the ports as driven, which leaves the datapath at its start values. -/
theorem illegalWordOnlySetsStatus : Obligations.IllegalWordOnlySetsStatus := by
  intro s
  refine ⟨Datapath.initial, fun hinv => hinv.datapath.symm, fun r hs => ⟨?_, fun hw => ?_⟩⟩
  · exact (decodeCmd_ne_ok_iff r.cmd).symm
  · exact issue_of_illegal hs hw

/-- Settles O16: an operation ends with the word of a status, and each of the eight words has its code
in the low field. -/
theorem statusWordLayout : Obligations.StatusWordLayout :=
  ⟨fun _ _ _ => exec_status_eq_word, Status.word_fields⟩

end Sys2Proof.Proofs
end

-- Proofs of the statements about the Frame Codec (40_frame_codec.md).
section
/-! SUPPORT. The fields of what ENCODE and DECODE answer, each in the terms of the spec's tables. -/

namespace Sys2Proof.Machine

/-! ### ENCODE -/

/-- With power off, or on with a recognized selector, ENCODE completes with a payload that has the
selector's mode code, 0 for an unrecognized one (R102, R103). -/
theorem exec_encode_completes {power : Bool} {m : Fin 16} (f : Fin 16) (temp : Int) (s : State)
    (h : power = false ∨ m.val ≤ 4) :
    ∃ mc : Fin 16, exec (.encode power m f temp) s =
        .next (s.complete (.pout (encodedPayload power (BitVec.ofNat 8 mc) temp f))) ∧
      mc.val = [1, 2, 5, 0, 3].getD m.val 0 := by
  rcases execEncode_cases power m f temp s with ⟨mc, hx, -, hmc⟩ | ⟨-, hon, hm⟩
  · exact ⟨mc, hx, hmc⟩
  · rcases h with hoff | hle
    · exact absurd (hoff.symm.trans hon) (by decide)
    · omega

/-- With power on an unrecognized selector ends ENCODE with UnsupportedMode (R103). -/
theorem exec_encode_unsupported {m : Fin 16} (f : Fin 16) (temp : Int) (s : State) (h : 5 ≤ m.val) :
    exec (.encode true m f temp) s = .next (s.raise .unsupportedMode) := by
  rcases execEncode_cases true m f temp s with ⟨-, -, hoff | hle, -⟩ | ⟨hx, -⟩
  · cases hoff
  · omega
  · exact hx

/-- Both fields of byte 6 as ENCODE packs it: the mode code and the temperature (R88). -/
theorem packByte6_encodeTemp_fields (temp : Int) (mc : Fin 16) :
    byte6Mode (packByte6 (encodeTemp temp) (BitVec.ofNat 8 mc)) = BitVec.ofNat 8 mc ∧
      byte6Temp (packByte6 (encodeTemp temp) (BitVec.ofNat 8 mc)) = encodeTemp temp := by
  have hb := encodeTemp_bounds temp
  exact packByte6_fields ⟨encodeTemp temp, by omega⟩ (by change 16 ≤ encodeTemp temp; omega) mc

section EncodedPayload

variable (power : Bool) (mc : Byte) (code : Fin 16) (temp : Int) (f : Fin 16)

@[simp] theorem encodedPayload_power : (encodedPayload power mc temp f)[5] = powerByte power := rfl

@[simp] theorem encodedPayload_byte6 :
    (encodedPayload power mc temp f)[6] = packByte6 (encodeTemp temp) mc := rfl

@[simp] theorem encodedPayload_fan : (encodedPayload power mc temp f)[7] = encodeFanCode f := rfl

/-- The mode nibble that ENCODE writes, as a number (R88). -/
theorem encodedPayload_mode_toNat :
    ((encodedPayload power (BitVec.ofNat 8 code) temp f)[6] &&& 0x0F#8).toNat = code.val := by
  have hmode := congrArg BitVec.toNat (packByte6_encodeTemp_fields temp code).1
  rw [BitVec.toNat_ofNat, Nat.mod_eq_of_lt (by omega)] at hmode
  exact hmode

/-- The temperature field that ENCODE writes stands for the temperature of R104. -/
theorem encodedPayload_temp_toNat :
    (((encodedPayload power (BitVec.ofNat 8 code) temp f)[6] >>> 4).toNat : Int) + 16 =
      sentTemp temp := by
  rw [← encodeTemp_eq_sentTemp]
  exact_mod_cast (packByte6_encodeTemp_fields temp code).2

theorem encodedPayload_inverseHolds : InverseHolds (encodedPayload power mc temp f) := by
  have hzero : (0xFF : Byte) = ~~~0 := by decide
  exact ⟨rfl, rfl, rfl, hzero, hzero, hzero⟩

end EncodedPayload

/-- The inverse relation of one byte (R87). -/
theorem InverseHolds.byte {p : Payload} (h : InverseHolds p) (k : Fin 6) :
    p[11 + k.val] = ~~~p[5 + k.val] := by
  obtain ⟨h0, h1, h2, h3, h4, h5⟩ := h
  fin_cases k
  exacts [h0, h1, h2, h3, h4, h5]

/-- The fan codes of the selectors (R106). -/
theorem encodeFanCode_eq (f : Fin 16) :
    encodeFanCode f = if f = 0 then 0x31#8 else if f = 1 then 0x33#8 else if f = 2 then 0x35#8
      else if f = 3 then 0x37#8 else 0x31#8 := by
  revert f
  decide

/-! ### DECODE: the checks -/

theorem decodePayload_badHeader {p : Payload} (h : ¬ HasHeader p) :
    decodePayload p = .error .badHeader := by
  simpa [h] using decodePayload_cases p

theorem decodePayload_checksumMismatch {p : Payload} (hh : HasHeader p) (hi : ¬ InverseHolds p) :
    decodePayload p = .error .checksumMismatch := by
  simpa [hh, hi] using decodePayload_cases p

/-- DECODE's answer is fixed by its two checks and the bytes 5, 6 and 7 (R118). -/
theorem decodePayload_congr {p q : Payload} (hh : HasHeader p ↔ HasHeader q)
    (hi : InverseHolds p ↔ InverseHolds q) (h5 : p[5] = q[5]) (h6 : p[6] = q[6]) (h7 : p[7] = q[7]) :
    decodePayload p = decodePayload q := by
  have hheader : headerOk p = headerOk q := by
    rw [Bool.eq_iff_iff, headerOk_iff, headerOk_iff, hh]
  have hinverse : inverseOk p = inverseOk q := by
    rw [Bool.eq_iff_iff, inverseOk_iff, inverseOk_iff, hi]
  simp only [decodePayload, hheader, hinverse, h5, h6, h7]

theorem exec_decode_error {s : State} {p : Payload} {e : Status} (hs : s.pin = p.toList)
    (h : decodePayload p = .error e) : exec .decode s = .next (s.raise e) := by
  have hx := execDecode_payload hs
  rwa [h] at hx

theorem exec_decode_ok {s : State} {p : Payload} {d : Decoded} (hs : s.pin = p.toList)
    (h : decodePayload p = .ok d) : exec .decode s = .next (s.complete (.sout (soutWord d))) := by
  have hx := execDecode_payload hs
  rwa [h] at hx

/-! ### DECODE: the fields -/

/-- The claims' MODE_OF table is the model's: the selector of the nibble's mode (R75, R83). -/
theorem modeSelOfNibble_eq (nibble : Byte) :
    modeSelOfNibble nibble.toNat = (modeOfCode nibble).map fun m => (selOfMode m).val := by
  unfold modeOfCode
  split
  · next h => exact congrArg modeSelOfNibble h
  · next h => exact congrArg modeSelOfNibble h
  · next h => exact congrArg modeSelOfNibble h
  · next h => exact congrArg modeSelOfNibble h
  · next h => exact congrArg modeSelOfNibble h
  · next h0 h1 h2 h3 h5 =>
    rw [imp_false] at h0 h1 h2 h3 h5
    obtain h4 | hge : nibble.toNat = 4 ∨ 6 ≤ nibble.toNat := by omega
    · exact congrArg modeSelOfNibble h4
    · exact List.getD_eq_default _ _ hge

/-- With power on, a nibble that names a mode is accepted with that mode's selector (R115). -/
theorem decodePayload_on {p : Payload} {n : Nat} (hh : HasHeader p) (hi : InverseHolds p)
    (hon : p[5] = 0x40#8) (hn : modeSelOfNibble (p[6] &&& 0x0F#8).toNat = some n) :
    ∃ m, (selOfMode m).val = n ∧
      decodePayload p = .ok ⟨true, some m, byte6Temp p[6], fanOfCode p[7]⟩ := by
  rw [modeSelOfNibble_eq] at hn
  obtain ⟨m, hm, hsel⟩ := Option.map_eq_some_iff.mp hn
  have hmode : modeOfCode (byte6Mode p[6]) = some m := hm
  exact ⟨m, hsel, by simpa [hh, hi, hon, hmode] using decodePayload_cases p⟩

/-- With power on, a reserved nibble is UnknownOperatingMode (R115). -/
theorem decodePayload_unknownMode {p : Payload} (hh : HasHeader p) (hi : InverseHolds p)
    (hon : p[5] = 0x40#8) (hn : modeSelOfNibble (p[6] &&& 0x0F#8).toNat = none) :
    decodePayload p = .error .unknownOperatingMode := by
  rw [modeSelOfNibble_eq] at hn
  have hmode : modeOfCode (byte6Mode p[6]) = none := Option.map_eq_none_iff.mp hn
  simpa [hh, hi, hon, hmode] using decodePayload_cases p

/-- With power off the mode is Off, whatever the nibble holds (R114). -/
theorem decodePayload_off {p : Payload} (hh : HasHeader p) (hi : InverseHolds p)
    (hoff : p[5] ≠ 0x40#8) :
    decodePayload p = .ok ⟨false, none, byte6Temp p[6], fanOfCode p[7]⟩ := by
  simpa [hh, hi, hoff] using decodePayload_cases p

/-- What DECODE accepts, with power on or off: its temperature and fan are those of bytes 6 and 7 in
both cases (R114 to R117). -/
theorem decodePayload_accepted {p : Payload} (hh : HasHeader p) (hi : InverseHolds p)
    (hmode : p[5] = 0x40#8 → modeSelOfNibble (p[6] &&& 0x0F#8).toNat ≠ none) :
    ∃ power mode, decodePayload p = .ok ⟨power, mode, byte6Temp p[6], fanOfCode p[7]⟩ ∧
      (power = true ↔ p[5] = 0x40#8) ∧ (p[5] ≠ 0x40#8 → mode = none) := by
  by_cases hp : p[5] = 0x40#8
  · obtain ⟨n, hn⟩ := Option.ne_none_iff_exists'.mp (hmode hp)
    obtain ⟨m, -, hd⟩ := decodePayload_on hh hi hp hn
    exact ⟨_, _, hd, iff_of_true rfl hp, absurd hp⟩
  · exact ⟨_, _, decodePayload_off hh hi hp, iff_of_false Bool.false_ne_true hp, fun _ => rfl⟩

/-- The FAN field of a decoded fan code, Auto for an unknown code (R117). -/
theorem selOfFan_fanOfCode (code : Byte) :
    BitVec.ofFin (selOfFan (fanOfCode code)) = if code = 0x31#8 then 0#4 else if code = 0x33#8 then 1#4
      else if code = 0x35#8 then 2#4 else if code = 0x37#8 then 3#4 else 0#4 := by
  unfold fanOfCode
  split
  · next h => obtain rfl : code = 0x31#8 := BitVec.eq_of_toNat_eq h; rfl
  · next h => obtain rfl : code = 0x33#8 := BitVec.eq_of_toNat_eq h; rfl
  · next h => obtain rfl : code = 0x35#8 := BitVec.eq_of_toNat_eq h; rfl
  · next h => obtain rfl : code = 0x37#8 := BitVec.eq_of_toNat_eq h; rfl
  · next h1 h3 h5 h7 =>
    have hne (c : Byte) (hc : code.toNat = c.toNat → False) : code ≠ c := fun h => hc (h ▸ rfl)
    rw [if_neg (hne 0x31#8 h1), if_neg (hne 0x33#8 h3), if_neg (hne 0x35#8 h5), if_neg (hne 0x37#8 h7)]
    rfl

/-! ### The fields of the SOUT word -/

section SoutWord

variable (d : Decoded)

@[simp] theorem soutWord_power : (soutWord d).getLsbD 4 = d.power := wordOfFields_power ..

@[simp] theorem soutWord_mode : (soutWord d).extractLsb' 8 4 = BitVec.ofFin (soutMode d.mode) :=
  wordOfFields_mode ..

@[simp] theorem soutWord_fan : (soutWord d).extractLsb' 12 4 = BitVec.ofFin (selOfFan d.fan) :=
  wordOfFields_fan ..

@[simp] theorem soutWord_temp : (soutWord d).extractLsb' 16 8 = BitVec.ofNat 8 d.temp :=
  wordOfFields_temp ..

end SoutWord

/-- The temperature of byte 6 fits the TEMP field of SOUT (R77, R84). -/
theorem byte6Temp_ofNat_toNat (b : Byte) : (BitVec.ofNat 8 (byte6Temp b)).toNat = (b >>> 4).toNat + 16 := by
  have hlt : byte6Temp b < 2 ^ 8 := by
    simp only [byte6Temp, tempOffset, BitVec.toNat_ushiftRight, Nat.shiftRight_eq_div_pow]
    omega
  exact (BitVec.toNat_ofNat ..).trans (Nat.mod_eq_of_lt hlt)

/-! ### What DECODE does not read -/

/-- Ending an operation and driving PIN commute (R57). -/
theorem State.withPin_finish (s : State) (b : List Byte) (r : Except Status Output) :
    State.finish { s with pin := b } r = { s.finish r with pin := b } := by
  cases r with
  | error e => rfl
  | ok o => cases o <;> rfl

/-- DECODE of a payload on PIN ends the state with the answer of its checks (R110). -/
theorem exec_decode_withPin (s : State) (p : Payload) :
    exec .decode { s with pin := p.toList } =
      .next { s.finish ((decodePayload p).map fun d => .sout (soutWord d)) with pin := p.toList } := by
  rw [exec_eq_finish, ← State.withPin_finish]
  simp [opResult]

end Sys2Proof.Machine

namespace Sys2Proof.Proofs

open Sys2Proof.Machine

/-- Settles O23: the two ways ENCODE can end, told apart by the selector. -/
theorem encodeOnMapsOrRejectsMode : Obligations.EncodeOnMapsOrRejectsMode := by
  refine fun m f temp s => ⟨fun hm => ?_, fun hm => ?_⟩
  · obtain ⟨mc, hx, hmc⟩ := exec_encode_completes f temp s (.inr hm)
    exact ⟨_, _, hx, rfl, rfl, encodedPayload_power .., (encodedPayload_mode_toNat ..).trans hmc⟩
  · exact ⟨Datapath.initial, exec_encode_unsupported f temp s hm⟩

/-- Settles O24: with power off every selector has a mode code. -/
theorem encodeOffNeverFails : Obligations.EncodeOffNeverFails := by
  intro m f temp s
  obtain ⟨mc, hx, hmc⟩ := exec_encode_completes (m := m) f temp s (.inl rfl)
  exact ⟨_, _, hx, rfl, rfl, encodedPayload_power .., (encodedPayload_mode_toNat ..).trans hmc⟩

/-- Settles O25: byte 6 carries the temperature of R104, whatever the mode code beside it. -/
theorem encodeTemperatureFallsBackTo19 : Obligations.EncodeTemperatureFallsBackTo19 := by
  intro power m f temp s h
  obtain ⟨mc, hx, -⟩ := exec_encode_completes f temp s h
  exact ⟨_, _, hx, rfl, encodedPayload_temp_toNat ..⟩

/-- Settles O26: byte 7 is the selector's fan code. -/
theorem encodeFanDefaultsToAuto : Obligations.EncodeFanDefaultsToAuto := by
  intro power m f temp s h
  obtain ⟨mc, hx, -⟩ := exec_encode_completes f temp s h
  exact ⟨_, _, hx, rfl, (encodedPayload_fan ..).trans (encodeFanCode_eq f)⟩

/-- Settles O27: the payload's last six bytes are written as complements. -/
theorem encodeWritesInverseBytes : Obligations.EncodeWritesInverseBytes := by
  intro power m f temp s h
  obtain ⟨mc, hx, -⟩ := exec_encode_completes f temp s h
  exact ⟨_, _, hx, rfl, (encodedPayload_inverseHolds ..).byte⟩

/-- Settles O29: the length check comes first. -/
theorem decodeRejectsWrongLength : Obligations.DecodeRejectsWrongLength :=
  fun _ h => ⟨Datapath.initial, execDecode_tooShort h⟩

/-- Settles O30: the header check comes before every other check of 17 bytes. -/
theorem decodeRejectsBadHeader : Obligations.DecodeRejectsBadHeader :=
  fun _ _ hs hh => ⟨Datapath.initial, exec_decode_error hs (decodePayload_badHeader hh)⟩

/-- Settles O31: the inverse check comes next, before power and mode are looked at. -/
theorem decodeRejectsBrokenInverse : Obligations.DecodeRejectsBrokenInverse :=
  fun _ _ hs hh hi => ⟨Datapath.initial, exec_decode_error hs (decodePayload_checksumMismatch hh hi)⟩

/-- Settles O32: with power on the nibble's mode decides between a result and the error. -/
theorem decodeOnMapsOrRejectsMode : Obligations.DecodeOnMapsOrRejectsMode := by
  refine fun s p hs hh hi hon => ⟨fun n hn => ?_, fun hn => ?_⟩
  · obtain ⟨m, hsel, hd⟩ := decodePayload_on hh hi hon hn
    refine ⟨_, _, exec_decode_ok hs hd, rfl, rfl, ?_⟩
    rw [soutWord_mode]
    exact hsel
  · exact ⟨Datapath.initial, exec_decode_error hs (decodePayload_unknownMode hh hi hon hn)⟩

/-- Settles O34: the fields of the result word, one by one, of what DECODE accepts. -/
theorem decodeReportsPowerTemperatureFan : Obligations.DecodeReportsPowerTemperatureFan := by
  intro s p hs hh hi hmode
  obtain ⟨power, mode, hd, hpower, hoff⟩ := decodePayload_accepted hh hi hmode
  refine ⟨_, _, exec_decode_ok hs hd, rfl, rfl, ?_, fun hp => ?_, ?_, ?_⟩
  · rw [soutWord_power]
    exact hpower
  · rw [soutWord_mode, hoff hp]
    rfl
  · rw [soutWord_temp]
    exact byte6Temp_ofNat_toNat p[6]
  · rw [soutWord_fan]
    exact selOfFan_fanOfCode p[7]

/-- Settles O35: both payloads give DECODE's checks the same answer, and it alone ends the operation. -/
theorem decodeIgnoresReservedBytes : Obligations.DecodeIgnoresReservedBytes := by
  intro s p q hi heq
  have hh : HasHeader p ↔ HasHeader q := by
    unfold HasHeader
    rw [show p[0] = q[0] from heq 0, show p[1] = q[1] from heq 1, show p[2] = q[2] from heq 2,
      show p[3] = q[3] from heq 3, show p[4] = q[4] from heq 4]
  have hd : decodePayload p = decodePayload q := decodePayload_congr hh hi (heq 5) (heq 6) (heq 7)
  refine ⟨_, exec_decode_withPin s p, ?_⟩
  rw [hd]
  exact exec_decode_withPin s q

end Sys2Proof.Proofs
end

-- Proofs of the statements about the Pulse Transport (41_pulse_transport.md).
section
/-! SUPPORT. The frame SERIALIZE emits, and DESERIALIZE as the search for the one payload that a pulse
sequence carries. -/

namespace Sys2Proof.Machine

/-! ### The order of the bits on the wire -/

/-- Bit 8i + j in wire order is bit j of byte i (R52, R143). -/
theorem payloadBit_byte_bit (p : Payload) (i : Fin 17) (j : Fin 8) (h : 8 * i.val + j.val < 136) :
    payloadBit p ⟨8 * i.val + j.val, h⟩ = p[i].getLsbD j := by
  have hbyte : (8 * i.val + j.val) / 8 = i.val := by omega
  have hbit : (8 * i.val + j.val) % 8 = j.val := by omega
  simp [payloadBit, hbyte, hbit]

theorem wireBit_byte_bit (p : Payload) (i : Fin 17) (j : Fin 8) :
    wireBit p (8 * i.val + j.val) = p[i].getLsbD j := by
  have h : 8 * i.val + j.val < 136 := by omega
  rw [wireBit, dif_pos h, payloadBit_byte_bit]

/-- A fact about every wire position is one about every bit of every byte. -/
theorem forall_wire_iff {P : Nat → Prop} :
    (∀ k, k < 136 → P k) ↔ ∀ (i : Fin 17) (j : Fin 8), P (8 * i.val + j.val) := by
  refine ⟨fun h i j => h _ (by omega), fun h k hk => ?_⟩
  have hP := h ⟨k / 8, by omega⟩ ⟨k % 8, by omega⟩
  rwa [Nat.div_add_mod] at hP

/-! ### SERIALIZE -/

/-- The sequencer's pair at K = 1 + n carries bit n (R140, R143). -/
theorem pairAt_bit (p : Payload) (n : Nat) (hn : n < 136) :
    pairAt p ⟨1 + n, by omega⟩ = bitPulse (payloadBit p ⟨n, hn⟩) := by
  have hne : (⟨1 + n, by omega⟩ : Fin 139) ≠ 0 := by simp [Fin.ext_iff]
  simp [pairAt, hne, hn]

/-- What SERIALIZE emits is the payload's frame (R91, R141 to R144). -/
theorem framePulses_frameOf (p : Payload) : FrameOf p (framePulses p) where
  length := framePulses_length p
  header := framePulses_getElem? p 0
  bits i j := by
    have hn : 8 * i.val + j.val < 136 := by omega
    have hpair := pairAt_bit p _ hn
    rw [payloadBit_byte_bit] at hpair
    rw [Nat.add_assoc, framePulses_getElem?, dif_pos (by omega), hpair]
    cases p[i].getLsbD j <;> rfl
  terminator := framePulses_getElem? p 137

/-! ### The tolerance window -/

/-- The model's window, in natural numbers, is the spec's in integers: no legal tolerance makes the
subtraction 100 - T truncate (R145). -/
theorem within_iff_int (tol : Config.TolPct) (d : BitVec 32) (n : Nat) :
    within tol d n = true ↔
      (100 - (tol.val : Int)) * n ≤ 100 * (d.toNat : Int) ∧
        100 * (d.toNat : Int) ≤ (100 + (tol.val : Int)) * n := by
  have hsub : ((100 - tol.val : Nat) : Int) = 100 - (tol.val : Int) := by omega
  simp only [within, Bool.and_eq_true, decide_eq_true_eq, ← hsub]
  norm_cast

/-! ### DESERIALIZE -/

/-- Both halves of the header pair are compared (R152). -/
theorem matchesHeader_iff (tol : Config.TolPct) (h : Pulse) :
    matchesHeader tol h = true ↔ within tol h.mark 3060 = true ∧ within tol h.space 1580 = true :=
  Bool.and_eq_true_iff

/-- A capture in the grammar machine's terms: a header pair, then the payload's bits in wire order
(R151). -/
theorem captures_iff_wire (tol : Config.TolPct) (q : List Pulse) (p : Payload) :
    Captures tol q p ↔ (∃ h, q[0]? = some h ∧ matchesHeader tol h = true) ∧
      ∀ k, k < 136 → ∃ b, q[1 + k]? = some b ∧ bitOfPulse tol b = some (wireBit p k) := by
  simp only [forall_wire_iff, matchesHeader_iff, bitOfPulse_eq_some, wireBit_byte_bit, ← Nat.add_assoc]
  exact ⟨fun hc => ⟨hc.header, hc.bits⟩, fun ⟨hh, hb⟩ => ⟨hh, hb⟩⟩

/-- Only the first 137 pairs of a capture are looked at (R156). -/
theorem captures_take (tol : Config.TolPct) (q : List Pulse) (p : Payload) :
    Captures tol (q.take 137) p ↔ Captures tol q p := by
  have hget (k : Nat) (hk : k < 137) : (q.take 137)[k]? = q[k]? := List.getElem?_take_of_lt hk
  simp only [captures_iff_wire, hget 0 (by omega)]
  refine and_congr_right fun _ => forall₂_congr fun k hk => ?_
  rw [hget _ (by omega)]

/-- A capture reaches the last bit, so it has 137 pairs (R155). -/
theorem Captures.length {tol : Config.TolPct} {q : List Pulse} {p : Payload} (h : Captures tol q p) :
    137 ≤ q.length := by
  obtain ⟨b, hb, -⟩ := h.bits 16 7
  obtain ⟨hlt, -⟩ := List.getElem?_eq_some_iff.mp hb
  exact hlt

theorem feed_header {tol : Config.TolPct} {h : Pulse} (hm : matchesHeader tol h = true) :
    Datapath.initial.feed tol h = { Datapath.initial with phase := phaseAt 0 } := by
  simp [Datapath.feed, Datapath.initial, hm, phaseAt]

/-- A first pair that is no header pair fails the machine for good (R151, R152). -/
theorem feedAll_badHeader {tol : Config.TolPct} {h : Pulse} (hm : matchesHeader tol h = false)
    (q : List Pulse) : (Datapath.initial.feedAll tol (h :: q)).phase = .failed := by
  have hf : (Datapath.initial.feed tol h).phase = .failed := by
    simp [Datapath.feed, Datapath.initial, hm]
  rw [feedAll_cons, feedAll_absorbed tol _ q (.inr hf), hf]

theorem wireBit_zeros (k : Nat) : wireBit (Vector.replicate 17 0) k = false := by
  simp [wireBit, payloadBit]

/-- Behind a header pair, pairs that are all bit pairs bring the machine to Done with their bits in ACC
(R151). -/
theorem feedAll_initial_bits {tol : Config.TolPct} {h : Pulse} {q : List Pulse} {bit : Nat → Bool}
    (hm : matchesHeader tol h = true)
    (hq : ∀ k, k < 136 → ∃ b, q[k]? = some b ∧ bitOfPulse tol b = some (bit k)) :
    (Datapath.initial.feedAll tol (h :: q)).phase = .done ∧
      ∀ k, k < 136 → wireBit (Datapath.initial.feedAll tol (h :: q)).acc k = bit k := by
  rw [feedAll_cons, feed_header hm]
  exact feedAll_bits tol q bit 0 { Datapath.initial with phase := phaseAt 0 } (by omega) rfl
    (fun k _ => wireBit_zeros k) (fun k _ hk => hq k hk)

/-- The bit of pair `k` of a sequence, `false` where there is none. -/
def bitAt (tol : Config.TolPct) (q : List Pulse) (k : Nat) : Bool :=
  (q[k]?.bind (bitOfPulse tol)).getD false

theorem bitAt_eq {tol : Config.TolPct} {q : List Pulse} {k : Nat} {b : Pulse} {v : Bool}
    (hb : q[k]? = some b) (hv : bitOfPulse tol b = some v) : bitAt tol q k = v := by
  simp [bitAt, hb, hv]

/-- The machine ends in Done with a payload in ACC exactly for the captures of that payload (R151). -/
theorem captures_iff_feedAll (tol : Config.TolPct) (q : List Pulse) (p : Payload) :
    Captures tol q p ↔
      (Datapath.initial.feedAll tol q).phase = .done ∧ (Datapath.initial.feedAll tol q).acc = p := by
  rw [captures_iff_wire]
  cases q with
  | nil => simp [Datapath.feedAll, Datapath.initial]
  | cons h q =>
    cases hm : matchesHeader tol h with
    | false => simp [hm, feedAll_badHeader hm]
    | true =>
      simp only [List.getElem?_cons_zero, Option.some.injEq, exists_eq_left', hm, true_and,
        Nat.add_comm 1, List.getElem?_cons_succ]
      constructor
      · intro hq
        obtain ⟨hdone, hacc⟩ := feedAll_initial_bits hm hq
        exact ⟨hdone, payload_ext_wire hacc⟩
      · rintro ⟨hdone, rfl⟩
        rw [feedAll_cons, feed_header hm] at hdone
        have hpairs : ∀ k, k < 136 → ∃ b, q[k]? = some b ∧ bitOfPulse tol b = some (bitAt tol q k) := by
          intro k hk
          obtain ⟨b, v, hb, hv⟩ := feedAll_done tol q 0 _ (by omega) rfl hdone k (by omega) hk
          exact ⟨b, hb, hv.trans (congrArg some (bitAt_eq hb hv).symm)⟩
        intro k hk
        obtain ⟨-, hacc⟩ := feedAll_initial_bits hm hpairs
        rw [hacc k hk]
        exact hpairs k hk

/-- DESERIALIZE of a capture gives the captured payload (R150). -/
theorem opResult_deserialize_of_captures {tol : Config.TolPct} {q : List Pulse} {p : Payload}
    (pin : List Byte) (h : Captures tol q p) : opResult tol pin q .deserialize = .ok (.pout p) := by
  obtain ⟨hdone, hacc⟩ := (captures_iff_feedAll tol q p).mp h
  simp [opResult, hdone, hacc]

/-- DESERIALIZE of any other sequence gives FramingError (R150). -/
theorem opResult_deserialize_of_not_captures {tol : Config.TolPct} {q : List Pulse} (pin : List Byte)
    (h : ¬ ∃ p, Captures tol q p) : opResult tol pin q .deserialize = .error .framingError := by
  have hdone : (Datapath.initial.feedAll tol q).phase ≠ .done :=
    fun hd => h ⟨_, (captures_iff_feedAll tol q _).mpr ⟨hd, rfl⟩⟩
  simp [opResult, hdone]

theorem exec_deserialize_of_captures {s : State} {p : Payload} (h : Captures s.tolPct s.qin p) :
    exec .deserialize s = .next (s.complete (.pout p)) := by
  rw [exec_eq_finish, opResult_deserialize_of_captures s.pin h, State.finish_ok]

theorem exec_deserialize_of_not_captures {s : State} (h : ¬ ∃ p, Captures s.tolPct s.qin p) :
    exec .deserialize s = .next (s.raise .framingError) := by
  rw [exec_eq_finish, opResult_deserialize_of_not_captures s.pin h, State.finish_error]

/-- Sequences that agree on the first 137 pairs give DESERIALIZE the same result (R156). -/
theorem opResult_deserialize_congr {q q' : List Pulse} (tol : Config.TolPct) (pin : List Byte)
    (h : q.take 137 = q'.take 137) :
    opResult tol pin q .deserialize = opResult tol pin q' .deserialize := by
  have hcaptures (p : Payload) : Captures tol q p ↔ Captures tol q' p := by
    rw [← captures_take, h, captures_take]
  by_cases hq : ∃ p, Captures tol q p
  · obtain ⟨p, hp⟩ := hq
    rw [opResult_deserialize_of_captures pin hp,
      opResult_deserialize_of_captures pin ((hcaptures p).mp hp)]
  · have hq' : ¬ ∃ p, Captures tol q' p := by simpa only [hcaptures] using hq
    rw [opResult_deserialize_of_not_captures pin hq, opResult_deserialize_of_not_captures pin hq']

/-- Ending an operation and driving QIN commute (R57). -/
theorem State.withQin_finish (s : State) (q : List Pulse) (r : Except Status Output) :
    State.finish { s with qin := q } r = { s.finish r with qin := q } := by
  cases r with
  | error e => rfl
  | ok o => cases o <;> rfl

/-- DESERIALIZE of pairs on QIN ends the state with their result and leaves them on QIN (R150). -/
theorem exec_deserialize_withQin (s : State) (q : List Pulse) :
    exec .deserialize { s with qin := q } =
      .next { s.finish (opResult s.tolPct s.pin q .deserialize) with qin := q } := by
  rw [exec_eq_finish, State.withQin_finish]

end Sys2Proof.Machine

namespace Sys2Proof.Proofs

open Sys2Proof.Machine

/-- Settles O40: SERIALIZE completes with the sequencer's pairs, and they are the frame. -/
theorem serializeWritesFrame : Obligations.SerializeWritesFrame :=
  fun _ p hs => ⟨framePulses p, Datapath.initial, execSerialize_payload hs, framePulses_frameOf p⟩

/-- Settles O48: such a sequence captures no payload, since a capture's first pair matches the header. -/
theorem deserializeComparesBothHeaderHalves : Obligations.DeserializeComparesBothHeaderHalves := by
  intro s h rest hq hbad
  have hnone : ¬ ∃ p, Captures s.tolPct s.qin p := by
    rintro ⟨p, hc⟩
    obtain ⟨h', hh', hmark, hspace⟩ := hc.header
    obtain rfl : h = h' := by simpa [hq] using hh'
    rcases hbad with hbad | hbad
    · exact Bool.false_ne_true (hbad.symm.trans hmark)
    · exact Bool.false_ne_true (hbad.symm.trans hspace)
  exact ⟨_, exec_deserialize_of_not_captures hnone, rfl⟩

/-- Settles O50: such a sequence captures no payload, since a capture has 137 pairs. -/
theorem deserializeNeeds137Pairs : Obligations.DeserializeNeeds137Pairs := by
  intro s hlen
  have hnone : ¬ ∃ p, Captures s.tolPct s.qin p := fun ⟨_, hc⟩ => Nat.not_le_of_lt hlen hc.length
  exact ⟨Datapath.initial, exec_deserialize_of_not_captures hnone⟩

/-- Settles O51: both sequences carry the same payload, or both carry none. -/
theorem deserializeIgnoresTrailingPairs : Obligations.DeserializeIgnoresTrailingPairs := by
  intro s q q' _ htake
  refine ⟨_, exec_deserialize_withQin s q, ?_, fun p hc => ?_⟩
  · rw [opResult_deserialize_congr s.tolPct s.pin htake]
    exact exec_deserialize_withQin s q'
  · rw [opResult_deserialize_of_captures s.pin ((captures_take s.tolPct q p).mp hc)]
    exact ⟨rfl, rfl⟩

/-- Settles O44: the window of the model, read as integers. -/
theorem withinIsClosedExactWindow : Obligations.WithinIsClosedExactWindow := within_iff_int

end Sys2Proof.Proofs
end

-- Proofs of the statements about errors (60_exceptions.md).
section
/-! SUPPORT. What an operation that ends with an error leaves behind, and what makes an output hold a
value again. -/

namespace Sys2Proof.Machine

/-! ### The end with an error -/

/-- An operation whose STATUS is not OK has raised an error (R183). -/
theorem exec_eq_raise_of_status_ne_ok {i : Instr} {s t : State} (h : exec i s = .next t)
    (hst : t.status ≠ some Status.ok.word) : ∃ e, t = s.raise e := by
  rcases exec_cases i s with ⟨o, ho⟩ | ⟨e, -, he⟩
  · rw [ho] at h
    cases h
    exact absurd (s.complete_status o) hst
  · rw [he] at h
    cases h
    exact ⟨e, rfl⟩

/-- With the datapath at its start values, raising an error changes STATUS and the data outputs alone
(R183). -/
theorem State.raise_of_datapath_initial {s : State} (h : s.dp = Datapath.initial) (e : Status) :
    s.raise e = { s with status := some e.word, sout := none, pout := none, qout := none } := by
  rw [State.raise, ← h]

theorem State.raise_noOutput (s : State) (e : Status) : (s.raise e).NoOutput := ⟨rfl, rfl, rfl⟩

/-! ### Data outputs without a value -/

theorem State.NoOutput.holds_eq_false {s : State} (h : s.NoOutput) {p : OutPort} (hp : p ≠ .status) :
    s.holds p = false := by
  obtain ⟨hsout, hpout, hqout⟩ := h
  cases p with
  | status => exact absurd rfl hp
  | sout => exact congrArg Option.isSome hsout
  | pout => exact congrArg Option.isSome hpout
  | qout => exact congrArg Option.isSome hqout

/-- A read of a data output is refused while none holds a value (R184). -/
theorem State.NoOutput.readPort_refused {s : State} (h : s.NoOutput) {p : OutPort}
    (hp : p ≠ .status) : s.readPort p = .refused (.outputHoldsNoValue p) :=
  if_neg (Bool.eq_false_iff.mp (h.holds_eq_false hp))

/-- A step leaves the data outputs without a value, or it ends an operation with status OK (R184). -/
theorem step_noOutput_or_ok {s t : State} (hs : s.NoOutput) (h : step s = .next t) :
    t.NoOutput ∨ t.status = some Status.ok.word := by
  rcases step_next_cases h with ⟨-, rfl⟩ | ⟨r, rest, -, ⟨-, rfl⟩ | ⟨o, rfl⟩ | ⟨e, -, rfl⟩⟩ |
    ⟨p, rest, -, -, rfl⟩ | ⟨d, rest, -, rfl⟩
  · exact .inl hs
  · exact .inl hs
  · exact .inr (State.complete_status _ o)
  · exact .inl (State.raise_noOutput _ e)
  · exact .inl hs
  · exact .inl ⟨rfl, rfl, rfl⟩

/-- A step whose oldest action is `a` lets `a` reach the block (R60). -/
theorem step_consInputs (s : State) (a : HostAction) :
    step { s with inputs := a :: s.inputs } = act s a := rfl

end Sys2Proof.Machine

namespace Sys2Proof.Proofs

open Sys2Proof.Machine

/-- Settles O19: a failed operation is the raise of its status, and between operations the datapath is
already at the values that the raise puts there. -/
theorem errorChangesOnlyStatus : Obligations.ErrorChangesOnlyStatus := by
  intro i s t hinv h hst
  obtain ⟨e, rfl⟩ := exec_eq_raise_of_status_ne_ok h hst
  exact State.raise_of_datapath_initial hinv.datapath e

/-- Settles O20: the raise of an error clears every data output, and each way a step can go but the end
of an operation with status OK leaves cleared outputs as they are. -/
theorem errorLeavesNothingToRead : Obligations.ErrorLeavesNothingToRead := by
  refine ⟨fun i s t h hst => ?_, fun s t a hs h hout => ?_⟩
  · obtain ⟨e, rfl⟩ := exec_eq_raise_of_status_ne_ok h hst
    have hnone := s.raise_noOutput e
    exact ⟨hnone, fun p hp => hnone.readPort_refused hp⟩
  · have hstep := (step_consInputs s a).trans h
    exact (step_noOutput_or_ok (s := { s with inputs := a :: s.inputs }) hs hstep).resolve_left hout

/-- Settles O33: DECODE ends in one state, and each clause names the check whose answer that state's
STATUS is. -/
theorem decodeReportsFirstFailedCheck : Obligations.DecodeReportsFirstFailedCheck := by
  intro s
  obtain ⟨t, ht⟩ : ∃ t, exec .decode s = .next t := ⟨_, exec_eq_finish .decode s⟩
  have status_eq {t' : State} (h : exec .decode s = .next t') : t.status = t'.status := by
    cases ht.symm.trans h
    rfl
  refine ⟨t, ht, fun hl => status_eq (execDecode_tooShort hl), fun p hs => ⟨fun hh => ?_,
    fun hh hi => ?_, fun hh hi hon hn => ?_, fun hh hi hmode => ?_⟩⟩
  · exact status_eq (exec_decode_error hs (decodePayload_badHeader hh))
  · exact status_eq (exec_decode_error hs (decodePayload_checksumMismatch hh hi))
  · exact status_eq (exec_decode_error hs (decodePayload_unknownMode hh hi hon hn))
  · obtain ⟨power, mode, hd, -⟩ := decodePayload_accepted hh hi hmode
    exact status_eq (exec_decode_ok hs hd)

end Sys2Proof.Proofs
end

-- Proofs of the statements about reset and instantiation (70_reset_and_hazards.md).
section
/-! SUPPORT. What a reset does to the block, what an instantiation with an illegal tolerance answers, and
how the tolerance window grows. -/

namespace Sys2Proof.Machine

/-! ### Reset -/

/-- A reset resets the block, whatever operation it interrupts (R203). -/
@[simp] theorem act_reset (s : State) (during : Option Request) :
    act s (.reset during) = .next s.applyReset := rfl

theorem State.applyReset_noOutput (s : State) : s.applyReset.NoOutput :=
  ⟨s.applyReset_sout, s.applyReset_pout, s.applyReset_qout⟩

/-! ### Instantiation -/

/-- No block has a tolerance of 50 or more (R205). -/
theorem instantiate_refused {n : Nat} (h : 50 ≤ n) :
    instantiate n = .refused (.toleranceOutOfRange n) := dif_neg (Nat.not_lt.mpr h)

/-- The window of R145 around a nominal duration only grows with the tolerance. -/
theorem window_widens {tol tol' nominal d : Int} (htol : tol ≤ tol') (hnom : 0 ≤ nominal)
    (h : (100 - tol) * nominal ≤ 100 * d ∧ 100 * d ≤ (100 + tol) * nominal) :
    (100 - tol') * nominal ≤ 100 * d ∧ 100 * d ≤ (100 + tol') * nominal := by
  obtain ⟨hlo, hhi⟩ := h
  constructor
  · calc (100 - tol') * nominal ≤ (100 - tol) * nominal := by gcongr
      _ ≤ 100 * d := hlo
  · calc 100 * d ≤ (100 + tol) * nominal := hhi
      _ ≤ (100 + tol') * nominal := by gcongr

end Sys2Proof.Machine

namespace Sys2Proof.Proofs

open Sys2Proof.Machine

/-- Settles O10: the interrupted operation plays no part, and the reset puts each of these fields at its
start value. -/
theorem resetLeavesNoResult : Obligations.ResetLeavesNoResult := by
  intro s during
  have hdp : s.applyReset.dp = Datapath.initial := s.applyReset_dp
  exact ⟨s.applyReset, act_reset s during, s.applyReset_status, s.applyReset_noOutput,
    congrArg Datapath.acc hdp, congrArg Datapath.phase hdp, congrArg Datapath.k hdp,
    s.applyReset_tolPct⟩

/-- Settles O11: at 50 % a space of 575 microseconds is the shortest in ONE_SPACE's window and still lies
in ZERO_SPACE's, and a larger tolerance only widens both. -/
theorem instantiationRefusesOverlappingWindows :
    Obligations.InstantiationRefusesOverlappingWindows := by
  intro n hn
  have htol : (50 : Int) ≤ n := Int.ofNat_le.mpr hn
  exact ⟨instantiate_refused hn, 575, window_widens htol (by decide) (by decide),
    window_widens htol (by decide) (by decide)⟩

end Sys2Proof.Proofs
end

-- Proofs of the statements about the encoding of command words (30_encoding.md).
section
/-! SUPPORT. The encoder and the decoder are inverse to each other: what the decoder answers for an OP, and
how the fields of a word make up the word. -/

namespace Sys2Proof

/-! ### Decoding an encoded instruction -/

/-- A word whose OP is ENCODE's and whose reserved bits are 0 is read field by field (R70, R71). -/
theorem decodeCmd_of_encode_word {w : Word} (hop : cmdOp w = 0) (h5 : w.extractLsb' 5 3 = 0)
    (h24 : w.extractLsb' 24 8 = 0) :
    decodeCmd w = .ok (.encode (cmdPwr w) (cmdMode w) (cmdFan w) (cmdTemp w)) := by
  have hres : w &&& encodeReserved = 0 := (and_encodeReserved_eq_zero_iff w).mpr ⟨h5, h24⟩
  simp [decodeCmd, hop, checkReserved, hres]

/-- The TEMP field holds every temperature that fits it (R74). -/
theorem toInt_ofInt_of_tempFits {temp : Int} (h : TempFits temp) :
    (BitVec.ofInt 8 temp).toInt = temp := by
  obtain ⟨hlo, hhi⟩ := h
  exact BitVec.toInt_ofInt_eq_self (by decide) (by omega) (by omega)

/-- An ENCODE word gives back each of its operands (R70, R74). -/
theorem decodeCmd_encodeCmd_encode (power : Bool) (m f : Fin 16) {temp : Int} (h : TempFits temp) :
    decodeCmd (encodeCmd (.encode power m f temp)) = .ok (.encode power m f temp) := by
  obtain ⟨hop, h5, h24⟩ := Laws.CommandWord.encode power m f temp
  rw [decodeCmd_of_encode_word hop h5 h24]
  simp only [encodeCmd, cmdPwr, cmdMode, cmdFan, cmdTemp, wordOfFields_power, wordOfFields_mode, wordOfFields_fan,
    wordOfFields_temp, toInt_ofInt_of_tempFits h]

theorem decodeCmd_encodeCmd {i : Instr} (h : i.WellFormed) : decodeCmd (encodeCmd i) = .ok i := by
  cases i with
  | encode power m f temp => exact decodeCmd_encodeCmd_encode power m f (of_decide_eq_true h)
  | decode => decide
  | serialize => decide
  | deserialize => decide

/-! ### Encoding a decoded word -/

/-- A word with the bits [7:5] and [31:24] at 0 is made up of its other fields (R70). -/
theorem wordOfFields_fields {w : Word} (h5 : w.extractLsb' 5 3 = 0) (h24 : w.extractLsb' 24 8 = 0) :
    wordOfFields (w.extractLsb' 16 8) (w.extractLsb' 12 4) (w.extractLsb' 8 4) (w.getLsbD 4)
      (w.extractLsb' 0 4) = w := by
  have bit_of_field {start len : Nat} (hf : w.extractLsb' start len = 0) (i : Nat)
      (hi : start ≤ i) (hi' : i < start + len) : w.getLsbD i = false := by
    have hbit := congrArg (fun x => BitVec.getLsbD x (i - start)) hf
    simpa [show i - start < len by omega, Nat.add_sub_cancel' hi] using hbit
  refine BitVec.eq_of_getLsbD_eq fun i hi => ?_
  rw [wordOfFields_getLsbD]
  simp only [BitVec.getLsbD_extractLsb']
  split_ifs with h4 h5' h8 h12 h16 h24'
  · simp [h4]
  · rw [show i = 4 by omega]
  · exact (bit_of_field h5 i (by omega) (by omega)).symm
  · simp [show i - 8 < 4 by omega, show 8 + (i - 8) = i by omega]
  · simp [show i - 12 < 4 by omega, show 12 + (i - 12) = i by omega]
  · simp [show i - 16 < 8 by omega, show 16 + (i - 16) = i by omega]
  · exact (bit_of_field h24 i (by omega) (by omega)).symm

/-- The command word of an operation without operands in the word is its OP (R70, R71), and the
instruction is well formed. -/
theorem encodeCmd_data {i : Instr} (hi : i ∈ [Instr.decode, .serialize, .deserialize]) :
    encodeCmd i = 0#28 ++ Laws.CommandWord.opOf i ∧ i.WellFormed := by
  revert i
  decide

/-- A command word is its OP alone where the bits [31:4] are 0, as in the words of DECODE, SERIALIZE and
DESERIALIZE (R70, R71). -/
theorem encodeCmd_of_data_word {w : Word} {i : Instr}
    (hi : i ∈ [Instr.decode, .serialize, .deserialize]) (hop : cmdOp w = Laws.CommandWord.opOf i)
    (h4 : w.extractLsb' 4 28 = 0) : encodeCmd i = w := by
  obtain ⟨hword, -⟩ := encodeCmd_data hi
  calc encodeCmd i = w.extractLsb' 4 28 ++ w.extractLsb' 0 4 := by rw [hword, h4, ← hop]; rfl
    _ = w.extractLsb' 0 32 := BitVec.extractLsb'_append_extractLsb'_eq_extractLsb' rfl
    _ = w := BitVec.extractLsb'_eq_self

/-- A word that passes the check of its reserved bits is that instruction's (R72). -/
theorem checkReserved_eq_ok {w reserved : Word} {i j : Instr} (h : checkReserved w reserved i = .ok j) :
    w &&& reserved = 0 ∧ j = i := by
  unfold checkReserved at h
  split at h
  · next hres => cases h; exact ⟨hres, rfl⟩
  · cases h

/-- The TEMP field of a word is a temperature that fits it (R74). -/
theorem tempFits_cmdTemp (w : Word) : TempFits (cmdTemp w) := by
  have hlo := BitVec.le_toInt (w.extractLsb' 16 8)
  have hhi := BitVec.toInt_lt (x := w.extractLsb' 16 8)
  unfold TempFits cmdTemp
  omega

/-- A word that decodes is its instruction's encoding, and the instruction is well formed (R70, R71). -/
theorem encodeCmd_of_decodeCmd {w : Word} {i : Instr} (h : decodeCmd w = .ok i) :
    encodeCmd i = w ∧ i.WellFormed := by
  rcases decodeCmd_cases w with ⟨hop, hw⟩ | ⟨j, hj, hop, hw⟩ | ⟨-, hw⟩ <;> rw [hw] at h
  · obtain ⟨hres, rfl⟩ := checkReserved_eq_ok h
    obtain ⟨h5, h24⟩ := (and_encodeReserved_eq_zero_iff w).mp hres
    refine ⟨?_, decide_eq_true (tempFits_cmdTemp w)⟩
    have hlow : w.extractLsb' 0 4 = 0x0#4 := hop
    rw [encodeCmd, cmdTemp, BitVec.ofInt_toInt, ← hlow]
    exact wordOfFields_fields h5 h24
  · obtain ⟨hres, rfl⟩ := checkReserved_eq_ok h
    obtain ⟨-, hwf⟩ := encodeCmd_data hj
    exact ⟨encodeCmd_of_data_word hj hop ((and_dataReserved_eq_zero_iff w).mp hres), hwf⟩
  · cases h

end Sys2Proof

namespace Sys2Proof.Proofs

open Sys2Proof.Machine

/-- Settles O2: each field of the word is read back as the operand that was put there. -/
theorem decodeOfEncode : Obligations.DecodeOfEncode := fun _ => decodeCmd_encodeCmd

/-- Settles O3: the fields that the decoder reads and the bits it checks make up the whole word. -/
theorem encodeOfDecode : Obligations.EncodeOfDecode := fun _ _ => encodeCmd_of_decodeCmd

/-- Settles O1: the decoder run on each of the nine words. -/
theorem commandWordsDecode : Obligations.CommandWordsDecode := by
  unfold Obligations.CommandWordsDecode
  decide

end Sys2Proof.Proofs
end

-- Proofs of the statements about what every operation and every step leaves behind (10_state.md).
section
/-! SUPPORT. What each operation can end with, said once; from it the invariant, the status table and the
output table follow. -/

namespace Sys2Proof.Machine

/-! ### What an operation can end with -/

/-- The error statuses of an operation (R181). -/
def opErrors : Instr → List Status
  | .encode _ _ _ _ => [.unsupportedMode]
  | .decode => [.tooShort, .badHeader, .checksumMismatch, .unknownOperatingMode]
  | .serialize => [.tooShort]
  | .deserialize => [.framingError]

/-- The operation writes this output: the port that R25 names, with a value of its layout (R77, R91). -/
def Produces (i : Instr) (o : Output) : Prop :=
  match i with
  | .encode _ _ _ _ => ∃ p, o = .pout p
  | .decode => ∃ w, o = .sout w ∧ SoutLayout w
  | .serialize => ∃ p q, o = .qout q ∧ FrameOf p q
  | .deserialize => ∃ p, o = .pout p

/-- A result word has the layout of R77 when its power and mode agree and its temperature is one that
byte 6 can hold. -/
theorem soutLayout_soutWord {d : Decoded} (hmode : d.mode.isSome = d.power)
    (htemp : 16 ≤ d.temp ∧ d.temp ≤ 31) : SoutLayout (soutWord d) where
  zeros := ⟨wordOfFields_low .., wordOfFields_zeros5 .., wordOfFields_zeros24 ..⟩
  mode := by
    rw [soutWord_mode]
    cases d.mode with
    | none => exact .inr rfl
    | some m => exact .inl (by cases m <;> decide)
  offIff := by
    rw [soutWord_mode, soutWord_power, ← hmode]
    cases d.mode with
    | none => decide
    | some m => cases m <;> decide
  fan := by
    rw [soutWord_fan]
    cases d.fan <;> decide
  temp := by
    rwa [soutWord_temp, BitVec.toNat_ofNat, Nat.mod_eq_of_lt (by omega)]

theorem byte6Temp_bounds (b : Byte) : 16 ≤ byte6Temp b ∧ byte6Temp b ≤ 31 := by
  simp only [byte6Temp, tempOffset, BitVec.toNat_ushiftRight, Nat.shiftRight_eq_div_pow]
  omega

/-- DECODE's checks answer one of its errors, or a state whose result word has the layout of R77. -/
theorem decodePayload_outcome (p : Payload) :
    (∃ d, decodePayload p = .ok d ∧ SoutLayout (soutWord d)) ∨
      ∃ e ∈ [Status.badHeader, .checksumMismatch, .unknownOperatingMode], decodePayload p = .error e := by
  rcases decodePayload_cases p with ⟨-, hd⟩ | ⟨-, -, hd⟩ | ⟨-, -, -, -, hd⟩ | ⟨-, -, -, m, -, hd⟩ |
    ⟨-, -, -, hd⟩
  · exact .inr ⟨_, by decide, hd⟩
  · exact .inr ⟨_, by decide, hd⟩
  · exact .inr ⟨_, by decide, hd⟩
  · exact .inl ⟨_, hd, soutLayout_soutWord rfl (byte6Temp_bounds p[6])⟩
  · exact .inl ⟨_, hd, soutLayout_soutWord rfl (byte6Temp_bounds p[6])⟩

/-- An operation's result is an output that it produces, or one of its errors (R25, R181). -/
theorem opResult_cases (tol : Config.TolPct) (pin : List Byte) (qin : List Pulse) (i : Instr) :
    (∃ o, opResult tol pin qin i = .ok o ∧ Produces i o) ∨
      ∃ e ∈ opErrors i, opResult tol pin qin i = .error e := by
  cases i with
  | encode power m f temp =>
    rcases encodeModeCode_cases power m with ⟨mc, hm, -⟩ | ⟨hm, -⟩
    · exact .inl ⟨_, by rw [opResult, encodePayload_ok f temp hm, Except.map], _, rfl⟩
    · exact .inr ⟨_, List.mem_singleton_self _, by rw [opResult, encodePayload_error f temp hm, Except.map]⟩
  | decode =>
    cases hp : payloadOfBytes pin with
    | none => exact .inr ⟨.tooShort, by decide, by simp [opResult, hp]⟩
    | some p =>
      rcases decodePayload_outcome p with ⟨d, hd, hw⟩ | ⟨e, he, hd⟩
      · exact .inl ⟨.sout (soutWord d), by simp [opResult, hp, hd, Except.map], _, rfl, hw⟩
      · exact .inr ⟨e, List.mem_cons_of_mem _ he, by simp [opResult, hp, hd, Except.map]⟩
  | serialize =>
    cases hp : payloadOfBytes pin with
    | none => exact .inr ⟨.tooShort, by decide, by simp [opResult, hp]⟩
    | some p => exact .inl ⟨.qout (framePulses p), by simp [opResult, hp], p, _, rfl, framePulses_frameOf p⟩
  | deserialize =>
    by_cases hc : ∃ p, Captures tol qin p
    · obtain ⟨p, hp⟩ := hc
      exact .inl ⟨_, opResult_deserialize_of_captures pin hp, p, rfl⟩
    · exact .inr ⟨_, by decide, opResult_deserialize_of_not_captures pin hc⟩

/-- Every operation completes with an output that it produces, or raises one of its errors. -/
theorem exec_outcome (i : Instr) (s : State) :
    (∃ o, exec i s = .next (s.complete o) ∧ Produces i o) ∨
      ∃ e ∈ opErrors i, exec i s = .next (s.raise e) := by
  rw [exec_eq_finish]
  rcases opResult_cases s.tolPct s.pin s.qin i with ⟨o, hr, ho⟩ | ⟨e, he, hr⟩ <;> rw [hr]
  · exact .inl ⟨o, rfl, ho⟩
  · exact .inr ⟨e, he, rfl⟩

/-- OK is no error of an operation (R181). -/
theorem ne_ok_of_mem_opErrors {i : Instr} {e : Status} (h : e ∈ opErrors i) : e ≠ .ok := by
  rintro rfl
  cases i with
  | encode power m f temp => exact absurd (List.mem_singleton.mp h) (by decide)
  | decode => exact absurd h (by decide)
  | serialize => exact absurd h (by decide)
  | deserialize => exact absurd h (by decide)

/-- An operation ends with exactly one status, which is OK or one of its errors (R180, R181). -/
theorem exec_status_unique (i : Instr) (s : State) : ∃ t, exec i s = .next t ∧
    ∃! st : Status, t.status = some st.word ∧ st ∈ .ok :: opErrors i := by
  have unique (st : Status) : ∀ st' : Status, some st.word = some st'.word ∧ st' ∈ .ok :: opErrors i →
      st' = st :=
    fun st' h => Status.word_injective (Option.some.inj h.1).symm
  rcases exec_outcome i s with ⟨o, hx, -⟩ | ⟨e, he, hx⟩
  · refine ⟨_, hx, .ok, ⟨s.complete_status o, List.mem_cons_self ..⟩, ?_⟩
    rw [s.complete_status o]
    exact unique .ok
  · exact ⟨_, hx, e, ⟨rfl, List.mem_cons_of_mem _ he⟩, unique e⟩

@[simp] theorem State.finish_inputs (s : State) (r : Except Status Output) :
    (s.finish r).inputs = s.inputs := by
  cases r <;> simp

/-! ### The invariant -/

/-- The end of an operation with an output that it produces meets the invariant, whatever the state
before it. -/
theorem State.complete_inv (s : State) {i : Instr} {o : Output} (h : Produces i o) :
    (s.complete o).Inv := by
  have hst := s.complete_status o
  have hdp := s.complete_dp o
  cases i with
  | encode power m f temp =>
    obtain ⟨p, rfl⟩ := h
    exact ⟨hdp, .inr (.inl ⟨hst, .inr (.inl ⟨rfl, rfl, rfl⟩)⟩), nofun, nofun⟩
  | decode =>
    obtain ⟨w, rfl, hw⟩ := h
    exact ⟨hdp, .inr (.inl ⟨hst, .inl ⟨rfl, rfl, rfl⟩⟩), fun _ hv => Option.some.inj hv ▸ hw, nofun⟩
  | serialize =>
    obtain ⟨p, q, rfl, hf⟩ := h
    exact ⟨hdp, .inr (.inl ⟨hst, .inr (.inr ⟨rfl, rfl, rfl⟩)⟩), nofun,
      fun _ hv => ⟨p, Option.some.inj hv ▸ hf⟩⟩
  | deserialize =>
    obtain ⟨p, rfl⟩ := h
    exact ⟨hdp, .inr (.inl ⟨hst, .inr (.inl ⟨rfl, rfl, rfl⟩)⟩), nofun, nofun⟩

/-- The end of an operation with an error meets the invariant, whatever the state before it. -/
theorem State.raise_inv (s : State) {e : Status} (h : e ≠ .ok) : (s.raise e).Inv :=
  ⟨rfl, .inr (.inr ⟨e, h, rfl, s.raise_noOutput e⟩), nofun, nofun⟩

theorem State.applyReset_inv (s : State) : s.applyReset.Inv :=
  ⟨rfl, .inl ⟨rfl, s.applyReset_noOutput⟩, nofun, nofun⟩

theorem exec_inv {i : Instr} {s t : State} (h : exec i s = .next t) : t.Inv := by
  rcases exec_outcome i s with ⟨o, hx, ho⟩ | ⟨e, he, hx⟩ <;> rw [hx] at h <;> cases h
  · exact s.complete_inv ho
  · exact s.raise_inv (ne_ok_of_mem_opErrors he)

/-- The invariant does not speak of the host's actions to come. -/
theorem State.Inv.popInputs {s : State} (h : s.Inv) (rest : List HostAction) : (s.popInputs rest).Inv :=
  ⟨h.datapath, h.outputs, h.sout, h.qout⟩

/-- A host action that is not refused leaves a state that meets the invariant. -/
theorem act_inv {s t : State} {a : HostAction} (hs : s.Inv) (h : act s a = .next t) : t.Inv := by
  cases a with
  | command r =>
    change issue s r = .next t at h
    rcases issue_cases s r with ⟨-, hx⟩ | ⟨-, -, hx⟩ | ⟨i, p, -, -, -, hx⟩ | ⟨i, -, -, -, hx⟩ <;>
      rw [hx] at h
    · cases h
      exact hs
    · cases h
      exact State.raise_inv _ (by decide)
    · cases h
    · exact exec_inv h
  | read p =>
    cases hp : s.holds p with
    | true =>
      cases (State.readPort_of_holds hp).symm.trans h
      exact hs
    | false => cases (if_neg (Bool.eq_false_iff.mp hp)).symm.trans h
  | reset during =>
    cases h
    exact s.applyReset_inv

/-! ### The step -/

/-- With no host action to come the block waits (R60, log entry 5). -/
theorem step_nil {s : State} (h : s.inputs = []) : step s = .next s := by
  rw [step, h]

/-- A step lets the oldest host action reach the block (R60). -/
theorem step_cons {s : State} {a : HostAction} {rest : List HostAction} (h : s.inputs = a :: rest) :
    step s = act (s.popInputs rest) a := by
  rw [step, h]

theorem step_inv {s t : State} (hs : s.Inv) (h : step s = .next t) : t.Inv := by
  cases hi : s.inputs with
  | nil =>
    cases (step_nil hi).symm.trans h
    exact hs
  | cons a rest => exact act_inv (hs.popInputs rest) ((step_cons hi).symm.trans h)

end Sys2Proof.Machine

namespace Sys2Proof.Proofs

open Sys2Proof.Machine

/-- Settles O14: a step that ends an operation meets the invariant whatever was there before, a reset
too, and every other step only takes an action off the host's list. -/
theorem stepKeepsInvariant : Obligations.StepKeepsInvariant := fun _ _ => step_inv

/-- Settles O13: the reset state is a reset of itself. -/
theorem resetMeetsInvariant : Obligations.ResetMeetsInvariant := State.reset.applyReset_inv

/-- Settles O15: the table of R181 is OK and the errors of each operation, and distinct statuses have
distinct words. -/
theorem everyOperationEndsWithOneStatus : Obligations.EveryOperationEndsWithOneStatus := by
  intro i s
  have h := exec_status_unique i s
  cases i with
  | encode power m f temp => exact h
  | decode => exact h
  | serialize => exact h
  | deserialize => exact h

/-- Settles O17: an error clears every data output, and an operation that completes writes the output it
produces. -/
theorem operationWritesItsOneOutput : Obligations.OperationWritesItsOneOutput := by
  intro i s t h
  rcases exec_outcome i s with ⟨o, hx, ho⟩ | ⟨e, he, hx⟩ <;> rw [hx] at h <;> cases h
  · have hok : (s.complete o).status = some 0#32 := s.complete_status o
    refine ⟨Option.isSome_of_eq_some hok, absurd hok, fun _ => ?_⟩
    cases i with
    | encode power m f temp => obtain ⟨p, rfl⟩ := ho; exact ⟨rfl, rfl, rfl⟩
    | decode => obtain ⟨w, rfl, -⟩ := ho; exact ⟨rfl, rfl, rfl⟩
    | serialize => obtain ⟨p, q, rfl, -⟩ := ho; exact ⟨rfl, rfl, rfl⟩
    | deserialize => obtain ⟨p, rfl⟩ := ho; exact ⟨rfl, rfl, rfl⟩
  · refine ⟨rfl, fun _ => s.raise_noOutput e, fun hok => ?_⟩
    exact absurd ((Status.word_eq_ok e).mp (Option.some.inj hok)) (ne_ok_of_mem_opErrors he)

/-- Settles O18: the end of an operation writes none of these fields. -/
theorem operationsLeaveInputsAlone : Obligations.OperationsLeaveInputsAlone := by
  intro i s t h
  rw [exec_eq_finish] at h
  cases h
  exact ⟨s.finish_cmd _, s.finish_pin _, s.finish_qin _, s.finish_tolPct _, s.finish_inputs _⟩

end Sys2Proof.Proofs
end

-- Proofs of the statements about one step (20_memory.md, 30_encoding.md, 60_exceptions.md).
section
/-! SUPPORT. When a command is skipped, refused or run, and the only ways a step can be refused. -/

namespace Sys2Proof.Machine

/-! ### A command that reaches the block -/

/-- A command is skipped exactly if it is to follow an OK and the status is another (R96). -/
theorem Request.skipped_iff (r : Request) (s : State) :
    r.skipped s = true ↔ r.onlyIfOk = true ∧ s.status ≠ some Status.ok.word := by
  simp [Request.skipped]

/-- A skipped command does nothing (R96, log entry 16). -/
theorem issue_of_skipped {s : State} {r : Request} (h : r.skipped s = true) : issue s r = .next s :=
  if_pos h

/-- A command that is issued and finds the outputs it reads runs its operation on the ports as the host
drives them (R24). -/
theorem issue_of_decoded {s : State} {r : Request} {i : Instr} (hs : r.skipped s = false)
    (hd : decodeCmd r.cmd = .ok i) (hm : r.missing i s = none) : issue s r = exec i (s.present r) := by
  rcases issue_cases s r with ⟨hk, -⟩ | ⟨-, ⟨e, he⟩, -⟩ | ⟨j, p, -, hj, hp, -⟩ | ⟨j, -, hj, -, hx⟩
  · cases hs.symm.trans hk
  · cases hd.symm.trans he
  · cases hd.symm.trans hj
    cases hm.symm.trans hp
  · cases hd.symm.trans hj
    exact hx

theorem step_of_skipped {s : State} {r : Request} {rest : List HostAction}
    (hi : s.inputs = .command r :: rest) (hs : r.skipped s = true) : step s = .next (s.popInputs rest) :=
  (step_cons hi).trans (issue_of_skipped (s := s.popInputs rest) hs)

theorem step_of_decoded {s : State} {r : Request} {rest : List HostAction} {i : Instr}
    (hi : s.inputs = .command r :: rest) (hs : r.skipped s = false) (hd : decodeCmd r.cmd = .ok i)
    (hm : r.missing i s = none) : step s = exec i ((s.popInputs rest).present r) := by
  refine (step_cons hi).trans (issue_of_decoded (s := s.popInputs rest) hs hd ?_)
  cases i with
  | encode power m f temp => rfl
  | decode => exact hm
  | serialize => exact hm
  | deserialize => exact hm

/-! ### Refusals -/

/-- The outputs that a command can miss: the POUT that DECODE and SERIALIZE read, the QOUT that
DESERIALIZE reads (R71, R184; log entry 7). -/
theorem Request.missing_eq_some_iff (r : Request) (i : Instr) (s : State) (p : OutPort) :
    r.missing i s = some p ↔
      (p = .pout ∧ s.pout = none ∧ r.pin = .pout ∧ (i = .decode ∨ i = .serialize)) ∨
        (p = .qout ∧ s.qout = none ∧ r.qin = .qout ∧ i = .deserialize) := by
  cases i with
  | encode power m f temp => simp [Request.missing]
  | decode => simp [Request.missing, and_comm, eq_comm]
  | serialize => simp [Request.missing, and_comm, eq_comm]
  | deserialize => simp [Request.missing, and_comm, eq_comm]

/-- A command is refused exactly if it is issued, decodes, and misses an output (R184). -/
theorem issue_eq_refused_iff (s : State) (r : Request) (x : Refusal) :
    issue s r = .refused x ↔ ∃ i p, r.skipped s = false ∧ decodeCmd r.cmd = .ok i ∧
      r.missing i s = some p ∧ x = .outputHoldsNoValue p := by
  constructor
  · intro h
    rcases issue_cases s r with ⟨-, hx⟩ | ⟨-, -, hx⟩ | ⟨i, p, hs, hd, hm, hx⟩ | ⟨i, -, -, -, hx⟩ <;>
      rw [hx] at h
    · cases h
    · cases h
    · cases h
      exact ⟨i, p, hs, hd, hm, rfl⟩
    · rw [exec_eq_finish] at h
      cases h
  · rintro ⟨i, p, hs, hd, hm, rfl⟩
    simp [issue, hs, hd, hm]

theorem State.readPort_eq_refused_iff (s : State) (p : OutPort) (x : Refusal) :
    s.readPort p = .refused x ↔ s.holds p = false ∧ x = .outputHoldsNoValue p := by
  cases hp : s.holds p <;> simp [State.readPort, hp, eq_comm]

/-- A step is refused exactly for a port that holds no value and that the host reads, or that a command
of the host misses (R184). -/
theorem step_eq_refused_iff (s : State) (x : Refusal) :
    step s = .refused x ↔ ∃ p, x = .outputHoldsNoValue p ∧
      ((∃ rest, s.inputs = .read p :: rest ∧ s.holds p = false) ∨
        ∃ r rest i, s.inputs = .command r :: rest ∧ r.skipped s = false ∧ decodeCmd r.cmd = .ok i ∧
          r.missing i s = some p) := by
  cases hi : s.inputs with
  | nil => simp [step_nil hi]
  | cons a rest =>
    rw [step_cons hi]
    cases a with
    | command r =>
      change issue (s.popInputs rest) r = .refused x ↔ _
      rw [issue_eq_refused_iff]
      constructor
      · rintro ⟨i, p, hs, hd, hm, rfl⟩
        refine ⟨p, rfl, .inr ⟨r, rest, i, rfl, hs, hd, ?_⟩⟩
        rwa [Request.missing_eq_some_iff] at hm ⊢
      · rintro ⟨p, rfl, ⟨rest', hr, -⟩ | ⟨r', rest', i, hr, hs, hd, hm⟩⟩
        · cases hr
        · cases hr
          refine ⟨i, p, hs, hd, ?_, rfl⟩
          rwa [Request.missing_eq_some_iff] at hm ⊢
    | read p =>
      change (s.popInputs rest).readPort p = .refused x ↔ _
      rw [State.readPort_eq_refused_iff]
      constructor
      · rintro ⟨hp, rfl⟩
        exact ⟨p, rfl, .inl ⟨rest, rfl, hp⟩⟩
      · rintro ⟨p', rfl, ⟨rest', hr, hp⟩ | ⟨r, rest', i, hr, -⟩⟩
        · cases hr
          exact ⟨hp, rfl⟩
        · cases hr
    | reset during =>
      refine iff_of_false nofun ?_
      rintro ⟨p, -, ⟨rest', hr, -⟩ | ⟨r, rest', i, hr, -⟩⟩ <;> cases hr

/-- The type of faults is empty: the block never faults (R183, R188). -/
theorem step_ne_fault (s : State) (f : Fault) : step s ≠ .fault f := nomatch f

end Sys2Proof.Machine

namespace Sys2Proof.Proofs

open Sys2Proof.Machine

/-- Settles O8: the outputs a command can miss, for each operation its word decodes to. -/
theorem stepRefusedExactlyOnValuelessOutput : Obligations.StepRefusedExactlyOnValuelessOutput := by
  refine fun s => ⟨step_ne_fault s, fun x => (step_eq_refused_iff s x).trans ?_⟩
  refine exists_congr fun p => and_congr_right fun _ => or_congr_right ?_
  refine exists₂_congr fun r rest => ?_
  simp only [Request.missing_eq_some_iff]
  constructor
  · rintro ⟨i, hi, hs, hd, ⟨hp, hv, hr, rfl | rfl⟩ | ⟨hp, hv, hr, rfl⟩⟩
    · exact ⟨hi, hs, .inl ⟨hp, hv, hr, .inl hd⟩⟩
    · exact ⟨hi, hs, .inl ⟨hp, hv, hr, .inr hd⟩⟩
    · exact ⟨hi, hs, .inr ⟨hp, hv, hr, hd⟩⟩
  · rintro ⟨hi, hs, ⟨hp, hv, hr, hd | hd⟩ | ⟨hp, hv, hr, hd⟩⟩
    · exact ⟨_, hi, hs, hd, .inl ⟨hp, hv, hr, .inl rfl⟩⟩
    · exact ⟨_, hi, hs, hd, .inl ⟨hp, hv, hr, .inr rfl⟩⟩
    · exact ⟨_, hi, hs, hd, .inr ⟨hp, hv, hr, rfl⟩⟩

/-- Settles O5: the two cases of a step, by the host's list. -/
theorem stepTakesOldestAction : Obligations.StepTakesOldestAction :=
  ⟨fun s a rest => step_cons (s := { s with inputs := a :: rest }) rfl, fun _ => step_nil⟩

/-- Settles O6: such a command is neither skipped nor illegal nor refused. -/
theorem stepRunsDecodedCommand : Obligations.StepRunsDecodedCommand :=
  fun _ _ _ _ => step_of_decoded

/-- Settles O7: 0 is the word of status OK. -/
theorem stepSkipsAfterError : Obligations.StepSkipsAfterError :=
  fun s r _ hi honly hst => step_of_skipped hi ((r.skipped_iff s).mpr ⟨honly, hst⟩)

end Sys2Proof.Proofs
end

-- Proofs of the statements about DECODE of what ENCODE writes (40_frame_codec.md).
section
/-! SUPPORT. The payload ENCODE writes and the word DECODE answers, as numbers; the two together; and what
one changed byte of a payload breaks. -/

namespace Sys2Proof.Machine

/-! ### The payload as numbers -/

/-- A byte is its two nibbles (R88). -/
theorem byte_eq_nibbles (b : Byte) : b.toNat = (b >>> 4).toNat * 16 + (b &&& 0x0F#8).toNat := by
  have hlow : (b &&& 0x0F#8).toNat = b.toNat % 16 := by
    rw [BitVec.toNat_and]
    exact Nat.and_two_pow_sub_one_eq_mod b.toNat 4
  rw [hlow, BitVec.toNat_ushiftRight, Nat.shiftRight_eq_div_pow]
  omega

/-- Byte 6 of what ENCODE writes: the transmitted temperature's offset above the mode code (R88, R104). -/
theorem encodedPayload_byte6_toNat (power : Bool) (code : Fin 16) (temp : Int) (f : Fin 16) :
    ((encodedPayload power (BitVec.ofNat 8 code) temp f)[6].toNat : Int) =
      (sentTemp temp - 16) * 16 + (code.val : Nat) := by
  have htemp := encodedPayload_temp_toNat power code temp f
  have hmode := encodedPayload_mode_toNat power code temp f
  rw [byte_eq_nibbles, hmode]
  push_cast
  omega

theorem encodedPayload_hasHeader (power : Bool) (mc : Byte) (temp : Int) (f : Fin 16) :
    HasHeader (encodedPayload power mc temp f) := ⟨rfl, rfl, rfl, rfl, rfl⟩

theorem encodeFanCode_toNat (f : Fin 16) :
    (encodeFanCode f).toNat = [0x31, 0x33, 0x35, 0x37].getD f.val 0x31 := by
  revert f
  decide

/-! ### The result word as a number -/

/-- The FAN_OF table of the claims is the model's (R76, R117). -/
theorem fanSelOfCode_toNat (code : Byte) :
    fanSelOfCode code.toNat = (selOfFan (fanOfCode code)).val := by
  unfold fanOfCode
  split
  · next h => rw [h]; rfl
  · next h => rw [h]; rfl
  · next h => rw [h]; rfl
  · next h => rw [h]; rfl
  · next _ h3 h5 h7 => rw [fanSelOfCode, if_neg h3, if_neg h5, if_neg h7]; rfl

/-- The result word of a payload's fields, as a number (R77). -/
theorem soutWord_toNat (power : Bool) (mode : Option Mode) (b6 b7 : Byte) :
    (soutWord ⟨power, mode, byte6Temp b6, fanOfCode b7⟩).toNat =
      power.toNat * 2 ^ 4 + (soutMode mode).val * 2 ^ 8 + fanSelOfCode b7.toNat * 2 ^ 12 +
        ((b6 >>> 4).toNat + 16) * 2 ^ 16 := by
  rw [soutWord, wordOfFields_toNat, byte6Temp_ofNat_toNat, fanSelOfCode_toNat]
  exact congrArg (· + _ * 2 ^ 8 + _ + _) (Nat.zero_add _)

/-! ### DECODE of what ENCODE writes -/

/-- Of the selectors 0..4 the mode code is one whose nibble names the mode again (R75, R83). -/
theorem modeSelOfNibble_modeCode {m : Fin 16} (h : m.val ≤ 4) :
    modeSelOfNibble ([1, 2, 5, 0, 3].getD m.val 0) = some m.val := by
  revert m
  decide

/-- The fan survives the way through its code, Auto for an unrecognized selector (R106, R117). -/
theorem selOfFan_encodeFanCode (f : Fin 16) :
    selOfFan (fanOfCode (encodeFanCode f)) = if f.val ≤ 3 then f else 0 := by
  revert f
  decide

/-- With power on DECODE's checks accept what ENCODE writes for a recognized mode, and find its mode,
temperature and fan (R109). -/
theorem decodePayload_encodedPayload_on {m code : Fin 16} (f : Fin 16) (temp : Int) (hm : m.val ≤ 4)
    (hcode : code.val = [1, 2, 5, 0, 3].getD m.val 0) :
    ∃ mode, selOfMode mode = m ∧ decodePayload (encodedPayload true (BitVec.ofNat 8 code) temp f) =
      .ok ⟨true, some mode, encodeTemp temp, fanOfCode (encodeFanCode f)⟩ := by
  have hn : modeSelOfNibble
      ((encodedPayload true (BitVec.ofNat 8 code) temp f)[6] &&& 0x0F#8).toNat = some m.val := by
    rw [encodedPayload_mode_toNat, hcode, modeSelOfNibble_modeCode hm]
  obtain ⟨mode, hsel, hd⟩ := decodePayload_on (encodedPayload_hasHeader ..)
    (encodedPayload_inverseHolds ..) (encodedPayload_power ..) hn
  rw [encodedPayload_byte6, (packByte6_encodeTemp_fields temp code).2, encodedPayload_fan] at hd
  exact ⟨mode, Fin.ext hsel, hd⟩

/-- With power off DECODE's checks accept what ENCODE writes for every selector (R119). -/
theorem decodePayload_encodedPayload_off (code f : Fin 16) (temp : Int) :
    decodePayload (encodedPayload false (BitVec.ofNat 8 code) temp f) =
      .ok ⟨false, none, encodeTemp temp, fanOfCode (encodeFanCode f)⟩ := by
  have hoff : (encodedPayload false (BitVec.ofNat 8 code) temp f)[5] ≠ 0x40#8 := by
    rw [encodedPayload_power]
    decide
  have hd := decodePayload_off (encodedPayload_hasHeader ..) (encodedPayload_inverseHolds ..) hoff
  rwa [encodedPayload_byte6, (packByte6_encodeTemp_fields temp code).2, encodedPayload_fan] at hd

/-- The result word of the recognized state that was encoded is its command word (R70, R77). -/
theorem soutWord_eq_encodeCmd {m f : Fin 16} {temp : Int} {mode : Mode} (hmode : selOfMode mode = m)
    (hf : f.val ≤ 3) (hlo : 19 ≤ temp) (hhi : temp ≤ 30) :
    soutWord ⟨true, some mode, encodeTemp temp, fanOfCode (encodeFanCode f)⟩ =
      encodeCmd (.encode true m f temp) := by
  have htemp : (encodeTemp temp : Int) = temp := by
    rw [encodeTemp_eq_sentTemp, sentTemp, if_pos ⟨hlo, hhi⟩]
  have hfield : BitVec.ofNat 8 (encodeTemp temp) = BitVec.ofInt 8 temp := by
    rw [← BitVec.ofInt_natCast, htemp]
  simp only [soutWord, encodeCmd, soutMode, hmode, selOfFan_encodeFanCode, if_pos hf, hfield]

/-- The round trip through the payload of a recognized state, ended with its command word (R109). -/
theorem decodePayload_of_encoded_state {m f code : Fin 16} {temp : Int} (hm : m.val ≤ 4)
    (hf : f.val ≤ 3) (hlo : 19 ≤ temp) (hhi : temp ≤ 30)
    (hcode : code.val = [1, 2, 5, 0, 3].getD m.val 0) :
    ∃ d, decodePayload (encodedPayload true (BitVec.ofNat 8 code) temp f) = .ok d ∧
      soutWord d = encodeCmd (.encode true m f temp) := by
  obtain ⟨mode, hmode, hd⟩ := decodePayload_encodedPayload_on f temp hm hcode
  exact ⟨_, hd, soutWord_eq_encodeCmd hmode hf hlo hhi⟩

/-! ### One changed byte -/

/-- A payload on POUT after ENCODE is the one ENCODE writes (R100). -/
theorem exec_encode_pout {power : Bool} {m f : Fin 16} {temp : Int} {s t : State} {p : Payload}
    (h : exec (.encode power m f temp) s = .next t) (hp : t.pout = some p) :
    ∃ mc, p = encodedPayload power mc temp f := by
  rcases execEncode_cases power m f temp s with ⟨mc, hx, -⟩ | ⟨hx, -⟩
  · cases hx.symm.trans h
    exact ⟨_, (Option.some.inj hp).symm⟩
  · cases hx.symm.trans h
    cases hp

theorem HasHeader.byte {p : Payload} (h : HasHeader p) (i : Fin 5) : p[i.val] = hdr[i.val] := by
  obtain ⟨h0, h1, h2, h3, h4⟩ := h
  fin_cases i
  exacts [h0, h1, h2, h3, h4]

/-- The header has one value, so a payload that has it loses it with any of its bytes (R81). -/
theorem not_hasHeader_set {p : Payload} (h : HasHeader p) (i : Fin 5) {b : Byte} (hb : b ≠ p[i.val]) :
    ¬ HasHeader (p.set i.val b) := by
  intro h'
  have hbyte := h'.byte i
  rw [Vector.getElem_set_self, ← h.byte i] at hbyte
  exact hb hbyte

/-- A byte behind the header is not part of it (R81). -/
theorem HasHeader.set {p : Payload} (h : HasHeader p) {n : Nat} (hn : n < 17) (hge : 5 ≤ n) (b : Byte) :
    HasHeader (p.set n b) := by
  have hkeep (i : Nat) (hi : i < 5) : (p.set n b)[i] = p[i] :=
    Vector.getElem_set_ne hn (by omega) (by omega)
  simpa only [HasHeader, hkeep 0 (by omega), hkeep 1 (by omega), hkeep 2 (by omega),
    hkeep 3 (by omega), hkeep 4 (by omega)] using h

/-- The complement of a byte has one value, so changing the byte alone breaks the relation (R87). -/
theorem not_inverseHolds_set {p : Payload} (h : InverseHolds p) (k : Fin 6) {b : Byte}
    (hb : b ≠ p[5 + k.val]) : ¬ InverseHolds (p.set (5 + k.val) b) := by
  intro h'
  have hbyte := h'.byte k
  rw [Vector.getElem_set_self, Vector.getElem_set_ne (by omega) (by omega) (by omega), h.byte k] at hbyte
  exact hb (BitVec.not_inj.mp hbyte).symm

/-- A byte with one of its bits flipped is another byte. -/
theorem flipBit_ne (b : Byte) (j : Fin 8) : b ^^^ (1#8 <<< j.val) ≠ b := by
  have hbit : ∀ j : Fin 8, 1#8 <<< j.val ≠ 0#8 := by decide
  simpa using hbit j

end Sys2Proof.Machine

namespace Sys2Proof.Proofs

open Sys2Proof.Machine

/-- Settles O36: ENCODE's payload passes the checks, and its fields are those of the command word. -/
theorem decodeOfEncodedState : Obligations.DecodeOfEncodedState := by
  intro m f temp s hm hf hlo hhi
  obtain ⟨code, hx, hcode⟩ := exec_encode_completes f temp s (.inr hm)
  obtain ⟨d, hd, hword⟩ := decodePayload_of_encoded_state hm hf hlo hhi hcode
  exact ⟨_, _, _, hx, rfl, exec_decode_ok rfl hd, rfl, congrArg some hword⟩

/-- Settles O37: an off payload passes the checks whatever its selectors are. -/
theorem decodeOfEncodedOffState : Obligations.DecodeOfEncodedOffState := by
  intro m f temp s
  obtain ⟨code, hx, -⟩ := exec_encode_completes (m := m) f temp s (.inl rfl)
  have hd := decodePayload_encodedPayload_off code f temp
  refine ⟨_, _, _, _, hx, rfl, exec_decode_ok rfl hd, rfl, rfl, ?_⟩
  have hb := encodeTemp_bounds temp
  have htemp : (BitVec.ofNat 8 (encodeTemp temp)).toNat = encodeTemp temp := Nat.mod_eq_of_lt (by omega)
  rw [soutWord, wordOfFields_toNat, selOfFan_encodeFanCode, ← encodeTemp_eq_sentTemp, htemp]
  split_ifs <;> simp [soutMode, modeSelOff]

/-- Settles O22: every field of the payload that ENCODE completes with. -/
theorem encodeWritesPayload : Obligations.EncodeWritesPayload := by
  intro power m f temp s h
  obtain ⟨code, hx, hcode⟩ := exec_encode_completes f temp s h
  refine ⟨_, hx, encodedPayload_hasHeader .., encodedPayload_inverseHolds .., encodedPayload_power ..,
    ?_, encodeFanCode_toNat f, rfl, rfl, rfl⟩
  rw [← hcode]
  exact encodedPayload_byte6_toNat power code temp f

/-- Settles O28: DECODE completes, with power on or off, with the word of the payload's fields. -/
theorem decodeWritesState : Obligations.DecodeWritesState := by
  rintro s p n hs hh hi (⟨hon, hn⟩ | ⟨hoff, rfl⟩)
  · obtain ⟨m, rfl, hd⟩ := decodePayload_on hh hi hon hn
    refine ⟨_, exec_decode_ok hs hd, ?_⟩
    rw [soutWord_toNat, if_pos hon]
    rfl
  · refine ⟨_, exec_decode_ok hs (decodePayload_off hh hi hoff), ?_⟩
    rw [soutWord_toNat, if_neg hoff]
    rfl

/-- Settles O38: the header stays, and the flipped byte no longer agrees with its complement. -/
theorem flippedBitIsDetected : Obligations.FlippedBitIsDetected := by
  intro power m f temp s t p k j h hp
  obtain ⟨mc, rfl⟩ := exec_encode_pout h hp
  have hh := (encodedPayload_hasHeader power mc temp f).set (n := 5 + k.val) (by omega) (by omega)
  have hi := not_inverseHolds_set (encodedPayload_inverseHolds power mc temp f) k (flipBit_ne _ j)
  exact ⟨_, exec_decode_error rfl (decodePayload_checksumMismatch (hh _) hi), rfl⟩

/-- Settles O39: the changed byte is no longer the header's. -/
theorem changedHeaderIsDetected : Obligations.ChangedHeaderIsDetected := by
  intro power m f temp s t p i b h hp hb
  obtain ⟨mc, rfl⟩ := exec_encode_pout h hp
  have hh := not_hasHeader_set (encodedPayload_hasHeader power mc temp f) i hb
  exact ⟨_, exec_decode_error rfl (decodePayload_badHeader hh), rfl⟩

end Sys2Proof.Proofs
end

-- Proofs of the statements that compare the Pulse Transport with the spec's loops (41_pulse_transport.md).
section
/-! SUPPORT. The two nested loops of R140 and R150 as one loop over the wire order, which is the order of
the sequencer K and of the grammar machine. -/

namespace Sys2Proof.Machine

/-! ### The nested loops as one loop -/

/-- The byte of bit `n` in wire order (R52). -/
def wireByte (n : Fin 136) : Fin 17 := ⟨n.val / 8, by omega⟩

/-- The place of bit `n` in its byte (R52). -/
def wireIdx (n : Fin 136) : Fin 8 := ⟨n.val % 8, by omega⟩

/-- A bit of a payload's byte is one of its bits in wire order (R143). -/
theorem payloadBit_eq (p : Payload) (n : Fin 136) :
    payloadBit p n = p[wireByte n].getLsbD (wireIdx n).val := rfl

/-- What a loop over the bytes around one over a byte's bits collects, at its place: the bodies all
collect `len` items. -/
theorem getElem?_flatMap_of_length {α β : Type} {body : α → List β} {len : Nat} (l : List α)
    (hlen : ∀ a, (body a).length = len) (i : Nat) {j : Nat} (hj : j < len) :
    (l.flatMap body)[len * i + j]? = l[i]?.bind fun a => (body a)[j]? := by
  induction l generalizing i with
  | nil => simp
  | cons a l ih =>
    rw [List.flatMap_cons]
    cases i with
    | zero => simp [List.getElem?_append_left, hlen, hj]
    | succ i =>
      rw [List.getElem?_append_right (by rw [hlen, Nat.mul_succ]; omega), hlen,
        show len * (i + 1) + j - len = len * i + j by rw [Nat.mul_succ]; omega, ih]
      rfl

/-- The loop over 17 bytes around the loop over 8 bits is the loop over the 136 bits in wire order
(R140, R150). -/
theorem nestedLoops_eq_wire {β : Type} (body : Fin 17 → Fin 8 → β) :
    ((List.finRange 17).flatMap fun i => (List.finRange 8).map (body i)) =
      (List.finRange 136).map fun n => body (wireByte n) (wireIdx n) := by
  have hlen : ((List.finRange 17).flatMap fun i => (List.finRange 8).map (body i)).length = 136 := by
    simp [List.length_flatMap]
  refine List.ext_getElem? fun k => ?_
  by_cases hk : k < 136
  · have hget := getElem?_flatMap_of_length (body := fun i => (List.finRange 8).map (body i))
      (len := 8) (List.finRange 17) (fun i => by simp) (k / 8) (j := k % 8) (by omega)
    rw [Nat.div_add_mod] at hget
    rw [hget]
    simp [hk, show k / 8 < 17 by omega, show k % 8 < 8 by omega, wireByte, wireIdx]
  · rw [List.getElem?_eq_none (by omega), List.getElem?_eq_none (by simp; omega)]

/-! ### SERIALIZE -/

/-- The body of SERIALIZE's loops emits the pair of the bit (R140, R143). -/
theorem emitBit_eq_bitPulse (p : Payload) (i : Fin 17) (j : Fin 8) :
    emitBit p i j = bitPulse (p[i].getLsbD j) := by
  rw [emitBit, bitPulse, BitVec.and_one_eq_setWidth_ofBool_getLsbD, BitVec.getLsbD_ushiftRight,
    Nat.add_zero]
  cases p[i].getLsbD j <;> rfl

/-- The frame as R140's loops emit it. -/
def frameLoops (p : Payload) : List Pulse :=
  headerPulse :: ((List.finRange 17).flatMap fun i => (List.finRange 8).map (emitBit p i)) ++
    [terminatorPulse]

theorem serializeLoops_payload (p : Payload) : serializeLoops p.toList = .ok (frameLoops p) := by
  simp only [serializeLoops, payloadOfBytes_toList]
  rfl

theorem frameLoops_eq_wire (p : Payload) :
    frameLoops p = headerPulse :: (List.finRange 136).map (fun n => bitPulse (payloadBit p n)) ++
      [terminatorPulse] := by
  simp only [frameLoops, emitBit_eq_bitPulse, nestedLoops_eq_wire, payloadBit_eq]

/-- The pair of a data bit, in microseconds (R92). -/
theorem bitPulse_eq (v : Bool) : bitPulse v = ⟨350, if v then 1150 else 390⟩ := by cases v <;> rfl

/-- A frame is what the loops emit for its payload, so a payload has one frame (R91, R140). -/
theorem FrameOf.eq_frameLoops {p : Payload} {q : List Pulse} (h : FrameOf p q) : q = frameLoops p := by
  rw [frameLoops_eq_wire]
  refine List.ext_getElem? fun k => ?_
  cases k with
  | zero => exact h.header
  | succ n =>
    rw [List.cons_append, List.getElem?_cons_succ]
    obtain hn | rfl | hn : n < 136 ∨ n = 136 ∨ 136 < n := by omega
    · have hbit := h.bits (wireByte ⟨n, hn⟩) (wireIdx ⟨n, hn⟩)
      rw [show 1 + 8 * (wireByte ⟨n, hn⟩).val + (wireIdx ⟨n, hn⟩).val = n + 1 by
        simp only [wireByte, wireIdx]; omega] at hbit
      rw [hbit, List.getElem?_append_left (by simpa using hn)]
      simp [hn, payloadBit_eq, bitPulse_eq]
    · rw [h.terminator, List.getElem?_append_right (by simp), List.length_map, List.length_finRange]
      rfl
    · rw [List.getElem?_eq_none (by rw [h.length]; omega), List.getElem?_eq_none (by simp; omega)]

/-! ### DESERIALIZE -/

/-- ACC after the bit (i, j) was read as `v` (R151). -/
def accWithBit (acc : Payload) (i : Fin 17) (j : Fin 8) (v : Bool) : Payload :=
  if v then setAccBit acc i j else acc

section ReadBit

variable {tol : Config.TolPct} {q : List Pulse} {i : Fin 17} {j : Fin 8} {b : Pulse} (acc : Payload)

theorem readBit_of_none (h : q[1 + 8 * i.val + j.val]? = none) :
    readBit tol q i acc j = .error .framingError := by
  simp [readBit, h]

/-- The body of DESERIALIZE's loops takes a pair exactly as the grammar machine does (R150, R151). -/
theorem readBit_of_some (h : q[1 + 8 * i.val + j.val]? = some b) :
    readBit tol q i acc j =
      ((bitOfPulse tol b).map (accWithBit acc i j)).elim (.error .framingError) .ok := by
  simp only [readBit, h, bitOfPulse]
  split_ifs <;> rfl

end ReadBit

/-- The body of DESERIALIZE's loops at bit `n` in wire order. -/
def readWireBit (tol : Config.TolPct) (q : List Pulse) (acc : Payload) (n : Fin 136) :
    Except Status Payload :=
  readBit tol q (wireByte n) acc (wireIdx n)

/-- A loop around a loop over the same accumulator is the loop over the pairs of both indices. -/
theorem foldlM_nested {ε α β γ : Type} (step : γ → α → β → Except ε γ) (inner : List β) (outer : List α)
    (acc : γ) :
    outer.foldlM (fun acc a => inner.foldlM (fun acc b => step acc a b) acc) acc =
      (outer.flatMap fun a => inner.map fun b => (a, b)).foldlM (fun acc ab => step acc ab.1 ab.2) acc := by
  induction outer generalizing acc with
  | nil => rfl
  | cons a outer ih =>
    simp only [List.flatMap_cons, List.foldlM_cons, List.foldlM_append, List.foldlM_map, ih]

/-- R150's two loops as one loop over the wire order. -/
theorem readLoops_eq_wire (tol : Config.TolPct) (q : List Pulse) (acc : Payload) :
    (List.finRange 17).foldlM
        (fun acc i => (List.finRange 8).foldlM (fun acc j => readBit tol q i acc j) acc) acc =
      (List.finRange 136).foldlM (readWireBit tol q) acc := by
  rw [foldlM_nested (fun acc i j => readBit tol q i acc j), nestedLoops_eq_wire, List.foldlM_map]
  rfl

/-- The grammar machine's answer: ACC when it ended in Done, else FramingError (R150). -/
def Datapath.answer (d : Datapath) : Except Status Payload :=
  if d.phase = .done then .ok d.acc else .error .framingError

/-- The machine's phase at bit `n` (R151). -/
theorem phaseAt_wire (n : Fin 136) : phaseAt n = .expectBit (wireByte n) (wireIdx n) := dif_pos n.isLt

/-- The machine at bit `n` takes a pair that is no bit pair into Failed (R151). -/
theorem feed_of_bitOfPulse_none {tol : Config.TolPct} {d : Datapath} {n : Fin 136} {b : Pulse}
    (hp : d.phase = phaseAt n) (hb : bitOfPulse tol b = none) : (d.feed tol b).phase = .failed := by
  simp [Datapath.feed, hp, phaseAt_wire, hb]

/-- The machine at bit `n` puts the bit of a bit pair into ACC and goes on to the next (R151). -/
theorem feed_of_bitOfPulse_some {tol : Config.TolPct} {d : Datapath} {n : Fin 136} {b : Pulse} {v : Bool}
    (hp : d.phase = phaseAt n) (hb : bitOfPulse tol b = some v) :
    (d.feed tol b).phase = phaseAt (n + 1) ∧
      (d.feed tol b).acc = accWithBit d.acc (wireByte n) (wireIdx n) v := by
  have hnext : nextPhase (wireByte n) (wireIdx n) = phaseAt (n + 1) := nextPhase_phaseAt n.isLt
  cases v <;> simp [Datapath.feed, hp, phaseAt_wire, hb, hnext, accWithBit]

/-- The simulation: from bit `n` on, the loop over the bits that are left answers what the machine does
on the pairs that are left (R151). -/
theorem foldlM_readWireBit_eq_feedAll (tol : Config.TolPct) (q : List Pulse) (left n : Nat)
    (hn : n + left = 136) (d : Datapath) (hp : d.phase = phaseAt n) :
    ((List.finRange 136).drop n).foldlM (readWireBit tol q) d.acc =
      (d.feedAll tol (q.drop (n + 1))).answer := by
  induction left generalizing n d with
  | zero =>
    obtain rfl : n = 136 := hn
    have hdone : d.phase = .done := hp
    rw [feedAll_absorbed tol d _ (.inl hdone), Datapath.answer, if_pos hdone,
      List.drop_eq_nil_of_le (by simp)]
    rfl
  | succ left ih =>
    have hlt : n < 136 := by omega
    have hidx : 1 + 8 * (wireByte ⟨n, hlt⟩).val + (wireIdx ⟨n, hlt⟩).val = n + 1 := by
      simp only [wireByte, wireIdx]
      omega
    rw [List.drop_eq_getElem_cons (by simpa using hlt), List.foldlM_cons, List.getElem_finRange]
    change (readBit tol q (wireByte ⟨n, hlt⟩) d.acc (wireIdx ⟨n, hlt⟩) >>= _) = _
    cases hq : q[n + 1]? with
    | none =>
      rw [readBit_of_none _ (by rw [hidx, hq]), List.drop_eq_nil_of_le (List.getElem?_eq_none_iff.mp hq)]
      have hopen : d.phase ≠ .done := by simp [hp, phaseAt, hlt]
      exact (if_neg hopen).symm
    | some b =>
      obtain ⟨hlen, rfl⟩ := List.getElem?_eq_some_iff.mp hq
      rw [readBit_of_some _ (by rw [hidx, hq]), List.drop_eq_getElem_cons hlen, feedAll_cons]
      cases hb : bitOfPulse tol q[n + 1] with
      | none =>
        have hfailed := feed_of_bitOfPulse_none (n := ⟨n, hlt⟩) hp hb
        rw [feedAll_absorbed tol _ _ (.inr hfailed), Datapath.answer, if_neg (by rw [hfailed]; decide)]
        rfl
      | some v =>
        obtain ⟨hphase, hacc⟩ := feed_of_bitOfPulse_some (n := ⟨n, hlt⟩) hp hb
        rw [← ih (n + 1) (by omega) _ hphase, hacc]
        rfl

/-- DESERIALIZE's loops answer what the grammar machine answers (R151). -/
theorem deserializeLoops_eq_feedAll (tol : Config.TolPct) (q : List Pulse) :
    deserializeLoops tol q = (Datapath.initial.feedAll tol q).answer := by
  cases q with
  | nil => rfl
  | cons h q =>
    rw [deserializeLoops, List.getElem?_cons_zero, readLoops_eq_wire]
    change (if (!matchesHeader tol h) = true then _ else _) = _
    cases hm : matchesHeader tol h with
    | false =>
      rw [Datapath.answer, feedAll_badHeader hm]
      rfl
    | true =>
      rw [feedAll_cons, feed_header hm]
      exact foldlM_readWireBit_eq_feedAll tol (h :: q) 136 0 rfl
        { Datapath.initial with phase := phaseAt 0 } rfl

/-- DESERIALIZE ends with the answer of the loops (R150). -/
theorem exec_deserialize_eq_loops (s : State) :
    exec .deserialize s = .next (s.finish ((deserializeLoops s.tolPct s.qin).map .pout)) := by
  rw [exec_eq_finish, deserializeLoops_eq_feedAll, opResult, Datapath.answer]
  split_ifs <;> rfl

/-! ### Air time -/

theorem airTime_cons (x : Pulse) (q : List Pulse) :
    airTime (x :: q) = x.mark.toNat + x.space.toNat + airTime q := by
  simp [airTime]

theorem airTime_append (q q' : List Pulse) : airTime (q ++ q') = airTime q + airTime q' := by
  simp [airTime]

/-- A loop's air time is the sum of its bodies'. -/
theorem airTime_flatMap {α : Type} (l : List α) (body : α → List Pulse) :
    airTime (l.flatMap body) = (l.map fun a => airTime (body a)).sum := by
  induction l with
  | nil => rfl
  | cons a l ih => simp [airTime_append, ih]

/-- A data bit takes 740 microseconds, and 760 more when it is 1 (R92). -/
theorem bitPulse_duration (v : Bool) :
    (bitPulse v).mark.toNat + (bitPulse v).space.toNat = 740 + 760 * v.toNat := by
  cases v <;> rfl

/-- The air time of some bits of a byte. -/
theorem airTime_map_bitPulse (bit : Fin 8 → Bool) (js : List (Fin 8)) :
    airTime (js.map fun j => bitPulse (bit j)) = 740 * js.length + 760 * js.countP bit := by
  induction js with
  | nil => rfl
  | cons j js ih =>
    rw [List.map_cons, airTime_cons, bitPulse_duration, ih, List.length_cons, List.countP_cons]
    cases bit j <;> simp <;> omega

/-- A sum over a payload's bytes, byte by byte. -/
theorem map_toList_eq_map_finRange {β : Type} (p : Payload) (g : Byte → β) :
    p.toList.map g = (List.finRange 17).map fun i => g p[i] :=
  List.ext_getElem (by simp) (by simp)

/-- The frame's air time: the header's, the 17 bytes', the terminator's (R212). -/
theorem airTime_frameLoops (p : Payload) : airTime (frameLoops p) = 105630 + 760 * oneBits p := by
  have hbyte (i : Fin 17) : airTime ((List.finRange 8).map (emitBit p i)) =
      5920 + 760 * (List.finRange 8).countP fun j : Fin 8 => p[i].getLsbD j := by
    rw [funext (emitBit_eq_bitPulse p i), airTime_map_bitPulse, List.length_finRange]
  have hheader : headerPulse.mark.toNat + headerPulse.space.toNat = 4640 := rfl
  have hterminator : airTime [terminatorPulse] = 350 := rfl
  rw [frameLoops, airTime_append, airTime_cons, airTime_flatMap, hheader, hterminator, oneBits,
    map_toList_eq_map_finRange]
  simp only [hbyte, List.sum_map_add, List.sum_map_mul_left, List.map_const', List.sum_replicate,
    List.length_finRange, smul_eq_mul]
  omega

/-! ### The nominal durations and the windows -/

/-- Every nominal duration lies in its own window, and ZERO_SPACE not in ONE_SPACE's, for every legal
tolerance (R145, R146). -/
theorem within_nominal (tol : Config.TolPct) :
    within tol 3060 3060 = true ∧ within tol 1580 1580 = true ∧ within tol 350 350 = true ∧
      within tol 1150 1150 = true ∧ within tol 390 390 = true ∧ within tol 390 1150 = false := by
  revert tol
  decide

/-- A frame is a capture of its payload, whatever follows it (R158). -/
theorem FrameOf.captures_append {p : Payload} {q : List Pulse} (h : FrameOf p q) (tol : Config.TolPct)
    (trailing : List Pulse) : Captures tol (q ++ trailing) p := by
  obtain ⟨hhdrMark, hhdrSpace, hbitMark, hone, hzero, hzeroOne⟩ := within_nominal tol
  have hget (k : Nat) (hk : k < 138) : (q ++ trailing)[k]? = q[k]? :=
    List.getElem?_append_left (by rw [h.length]; exact hk)
  refine ⟨⟨_, (hget 0 (by omega)).trans h.header, hhdrMark, hhdrSpace⟩, fun i j => ?_⟩
  refine ⟨_, (hget _ (by omega)).trans (h.bits i j), hbitMark, ?_⟩
  cases p[i].getLsbD j with
  | true => exact hone
  | false => exact ⟨hzeroOne, hzero⟩

/-- Another header pair that matches leaves a capture a capture (R152). -/
theorem Captures.withHeader {tol : Config.TolPct} {h h' : Pulse} {rest : List Pulse} {p : Payload}
    (hc : Captures tol (h :: rest) p) (hmark : within tol h'.mark 3060 = true)
    (hspace : within tol h'.space 1580 = true) : Captures tol (h' :: rest) p where
  header := ⟨h', rfl, hmark, hspace⟩
  bits i j := by
    obtain ⟨b, hb, hbit⟩ := hc.bits i j
    rw [Nat.add_assoc, Nat.add_comm, List.getElem?_cons_succ] at hb
    refine ⟨b, ?_, hbit⟩
    rw [Nat.add_assoc, Nat.add_comm, List.getElem?_cons_succ]
    exact hb

theorem Captures.header_space {tol : Config.TolPct} {h : Pulse} {rest : List Pulse} {p : Payload}
    (hc : Captures tol (h :: rest) p) : within tol h.space 1580 = true := by
  obtain ⟨h', hh, -, hspace⟩ := hc.header
  cases hh
  exact hspace

/-- A pair that is no bit pair, in the terms of the windows (R153, R154). -/
theorem bitOfPulse_eq_none_iff (tol : Config.TolPct) (b : Pulse) :
    bitOfPulse tol b = none ↔ within tol b.mark 350 = false ∨
      (within tol b.space 1150 = false ∧ within tol b.space 390 = false) := by
  unfold bitOfPulse bitMark oneSpace zeroSpace
  split_ifs <;> simp_all

/-- A sequence with a pair that is no bit pair among its bits carries no payload (R153, R154). -/
theorem not_captures_of_bad_pair {tol : Config.TolPct} {q : List Pulse} {k : Nat} {b : Pulse}
    (hk : k < 136) (hq : q[1 + k]? = some b) (hb : bitOfPulse tol b = none) :
    ¬ ∃ p, Captures tol q p := by
  rintro ⟨p, hc⟩
  obtain ⟨-, hbits⟩ := (captures_iff_wire tol q p).mp hc
  obtain ⟨b', hb', hbit⟩ := hbits k hk
  cases hq.symm.trans hb'
  cases hb.symm.trans hbit

/-- One microsecond past the upper end of the header mark's window (R145, R159). -/
theorem within_past_headerMark (tol : Config.TolPct) :
    within tol (BitVec.ofNat 32 (3060 * (100 + tol.val) / 100 + 1)) 3060 = false := by
  have htoNat : (BitVec.ofNat 32 (3060 * (100 + tol.val) / 100 + 1)).toNat =
      3060 * (100 + tol.val) / 100 + 1 := Nat.mod_eq_of_lt (by omega)
  rw [Bool.eq_false_iff, Ne, within_iff_int, htoNat]
  omega

/-- The bit windows have no duration in common (R146). -/
theorem bit_windows_disjoint (tol : Config.TolPct) (d : BitVec 32) :
    ¬ (within tol d 1150 = true ∧ within tol d 390 = true) := by
  simp only [within_iff_int]
  omega

/-- The window at 25 % (R146). -/
theorem within_25_iff (d : BitVec 32) (n : Nat) :
    within 25 d n = true ↔ 75 * n ≤ 100 * d.toNat ∧ 100 * d.toNat ≤ 125 * n := by
  rw [within, Bool.and_eq_true, decide_eq_true_iff, decide_eq_true_iff]
  rfl

end Sys2Proof.Machine

namespace Sys2Proof.Proofs

open Sys2Proof.Machine

/-- Settles O53: the frame that SERIALIZE emits is a capture of its payload. -/
theorem deserializeOfSerialized : Obligations.DeserializeOfSerialized := by
  intro s p trailing hs
  have hc := (framePulses_frameOf p).captures_append s.tolPct trailing
  exact ⟨_, _, _, execSerialize_payload hs, rfl, exec_deserialize_of_captures hc, rfl, rfl⟩

/-- Settles O42: the loops emit the payload's frame, and so does the sequencer. -/
theorem serializeAgreesWithLoops : Obligations.SerializeAgreesWithLoops := by
  intro s
  cases hp : payloadOfBytes s.pin with
  | none =>
    have hloops : serializeLoops s.pin = .error .tooShort := by simp only [serializeLoops, hp]
    rw [hloops]
    exact execSerialize_tooShort (payloadOfBytes_eq_none.mp hp)
  | some p =>
    have hs := payloadOfBytes_eq_some.mp hp
    have hloops : serializeLoops s.pin = .ok (framePulses p) := by
      rw [hs, serializeLoops_payload, (framePulses_frameOf p).eq_frameLoops]
    rw [hloops]
    exact execSerialize_payload hs

/-- Settles O43: a frame is what the loops emit, and the air time of a loop is the sum of its bodies'. -/
theorem frameAirTime : Obligations.FrameAirTime := by
  intro p q h
  rw [h.eq_frameLoops]
  exact airTime_frameLoops p

/-- Settles O46: the machine recovers the payload of a capture. -/
theorem deserializeRecoversPayload : Obligations.DeserializeRecoversPayload :=
  fun _ _ => exec_deserialize_of_captures

/-- Settles O47: the machine ends in Done for captures alone. -/
theorem deserializeRejectsEveryOtherSequence : Obligations.DeserializeRejectsEveryOtherSequence :=
  fun _ => exec_deserialize_of_not_captures

/-- Settles O49: pair k is that of bit k - 1, and no payload has a bit for it. -/
theorem deserializeRejectsBadBitPair : Obligations.DeserializeRejectsBadBitPair := by
  intro s k b hk hk' hq hbad
  obtain ⟨n, rfl⟩ := Nat.exists_eq_add_of_le hk
  have hnone := not_captures_of_bad_pair (by omega) hq ((bitOfPulse_eq_none_iff s.tolPct b).mpr hbad)
  exact ⟨_, exec_deserialize_of_not_captures hnone, rfl⟩

/-- Settles O52: the loop over the bits simulates the machine, pair by pair. -/
theorem grammarMachineAgreesWithLoops : Obligations.GrammarMachineAgreesWithLoops := by
  intro s
  rw [exec_deserialize_eq_loops]
  cases deserializeLoops s.tolPct s.qin <;> rfl

/-- Settles O54: 3060 lies in the window of the header mark, and the duration past its upper end does
not. -/
theorem headerMarkBoundary : Obligations.HeaderMarkBoundary := by
  intro s p h rest hq hc
  rw [hq] at hc
  obtain ⟨hnominal, -⟩ := within_nominal s.tolPct
  have hc' : Captures s.tolPct ({ h with mark := 3060 } :: rest) p :=
    hc.withHeader hnominal hc.header_space
  exact ⟨⟨_, exec_deserialize_of_captures (s := { s with qin := _ }) hc', rfl, rfl⟩,
    deserializeComparesBothHeaderHalves { s with qin := _ } _ rest rfl
      (.inl (within_past_headerMark s.tolPct))⟩

/-- Settles O41: the length check is the only one of SERIALIZE. -/
theorem serializeRejectsWrongLength : Obligations.SerializeRejectsWrongLength := by
  refine fun s => ⟨execSerialize_tooShort, fun hl => ?_⟩
  have hsome : payloadOfBytes s.pin ≠ none := fun h => payloadOfBytes_eq_none.mp h hl
  obtain ⟨p, hp⟩ := Option.ne_none_iff_exists'.mp hsome
  exact ⟨_, execSerialize_payload (payloadOfBytes_eq_some.mp hp), rfl⟩

/-- Settles O45: the windows as inequalities between integers. -/
theorem bitWindowsAreDisjoint : Obligations.BitWindowsAreDisjoint := by
  refine ⟨bit_windows_disjoint, fun d => ?_⟩
  simp only [within_25_iff]
  omega

end Sys2Proof.Proofs
end

-- Proofs of the statements about the pipelines, the assembler and instantiation (30_encoding.md,
-- 41_pulse_transport.md, 70_reset_and_hazards.md).
section
/-! SUPPORT. A pseudo-operation as two steps: its first command, then the one that takes POUT and is to
follow an OK. -/

namespace Sys2Proof.Machine

/-! ### Runs -/

/-- Two steps one after the other are a run of two. -/
theorem core_run_two {s t u : State} (hs : step s = .next t) (ht : step t = .next u) :
    core.run 2 s = .next u :=
  (core_run_succ 1 hs).trans (core_run_succ 0 ht)

/-- A run goes on from where a shorter one has ended. -/
theorem run_add (M : Host.Core) (m n : Nat) {s t : M.State} (h : M.run m s = .next t) :
    M.run (m + n) s = M.run n t := by
  induction m generalizing s with
  | zero =>
    cases h
    rw [Nat.zero_add]
  | succ m ih =>
    cases hx : M.step s with
    | next s' =>
      rw [run_succ_of_step M m hx] at h
      rw [Nat.succ_add, run_succ_of_step M _ hx, ih h]
    | fault r => simp [Host.Core.run, hx] at h
    | refused r => simp [Host.Core.run, hx] at h

/-! ### The second command of a pseudo-operation -/

/-- The second command of SEND and of RECEIVE: `i` on POUT, only after an OK (R96). -/
def chained (i : Instr) : Request := ⟨encodeCmd i, .pout, .pairs [], true⟩

theorem sendRequests_eq (power : Bool) (m f : Fin 16) (temp : Int) :
    sendRequests power m f temp =
      [command (.encode power m f temp) [] [], chained .serialize] := rfl

theorem receiveRequests_eq (qin : QinSource) :
    receiveRequests qin = [⟨encodeCmd .deserialize, .bytes [], qin, false⟩, chained .decode] := rfl

/-- After an OK with a payload on POUT the second command runs on that payload (R96, R170, R171). -/
theorem step_chained {s : State} {i : Instr} {p : Payload} {rest : List HostAction}
    (hi : s.inputs = .command (chained i) :: rest) (hwf : i.WellFormed)
    (hst : s.status = some Status.ok.word) (hp : s.pout = some p) :
    ∃ u, step s = exec i u ∧ u.pin = p.toList ∧ u.inputs = rest ∧ u.tolPct = s.tolPct := by
  have hskip : (chained i).skipped s = false := by simp [Request.skipped, hst]
  have hmissing : (chained i).missing i s = none := by
    rw [← Option.not_isSome_iff_eq_none, Option.isSome_iff_exists]
    rintro ⟨port, h⟩
    rcases ((chained i).missing_eq_some_iff i s port).mp h with ⟨-, hnone, -⟩ | ⟨-, -, hqin, -⟩
    · cases hp.symm.trans hnone
    · cases hqin
  refine ⟨_, step_of_decoded hi hskip (decodeCmd_encodeCmd hwf) hmissing, ?_, rfl, rfl⟩
  simp [chained, PinSource.value, hp]

/-- After an error the second command is taken off the list and does nothing (R96). -/
theorem step_chained_after_raise {s : State} {e : Status} {i : Instr} {rest : List HostAction}
    (hi : s.inputs = .command (chained i) :: rest) (he : e ≠ .ok) :
    step (s.raise e) = .next ((s.popInputs rest).raise e) := by
  refine step_of_skipped (s := s.raise e) hi ((Request.skipped_iff _ _).mpr ⟨rfl, fun h => he ?_⟩)
  exact Status.word_injective (Option.some.inj h)

/-! ### SEND -/

section Send

variable {s : State} {power : Bool} {m f : Fin 16} {temp : Int} {rest : List HostAction}

/-- The first command of SEND runs ENCODE (R170). -/
theorem step_send (hi : s.inputs = (sendRequests power m f temp).map .command ++ rest)
    (ht : TempFits temp) :
    ∃ u, step s = exec (.encode power m f temp) u ∧ u.tolPct = s.tolPct ∧
      u.inputs = .command (chained .serialize) :: rest := by
  rw [sendRequests_eq] at hi
  exact ⟨_, step_of_decoded hi rfl (decodeCmd_encodeCmd_encode power m f ht) rfl, rfl, rfl⟩

/-- SEND of a state that ENCODE accepts ends with the frame of its payload (R170). -/
theorem run_send (hi : s.inputs = (sendRequests power m f temp).map .command ++ rest)
    (ht : TempFits temp) (hm : power = false ∨ m.val ≤ 4) :
    ∃ (code : Fin 16) (u : State), code.val = [1, 2, 5, 0, 3].getD m.val 0 ∧
      core.run 2 s = .next (u.complete
        (.qout (framePulses (encodedPayload power (BitVec.ofNat 8 code) temp f)))) ∧
      u.inputs = rest ∧ u.tolPct = s.tolPct := by
  obtain ⟨u, hstep, htol, hu⟩ := step_send hi ht
  obtain ⟨code, hx, hcode⟩ := exec_encode_completes f temp u hm
  obtain ⟨v, hstep', hpin, hv, htol'⟩ :=
    step_chained (s := u.complete (.pout _)) hu rfl rfl rfl
  exact ⟨code, v, hcode,
    core_run_two (hstep.trans hx) (hstep'.trans (execSerialize_payload hpin)), hv, htol'.trans htol⟩

/-- SEND with power on and an unrecognized mode ends with UnsupportedMode (R170). -/
theorem run_send_unsupported (hi : s.inputs = (sendRequests true m f temp).map .command ++ rest)
    (ht : TempFits temp) (hm : 5 ≤ m.val) :
    ∃ u : State, core.run 2 s = .next (u.raise .unsupportedMode) ∧ u.inputs = rest := by
  obtain ⟨u, hstep, -, hu⟩ := step_send hi ht
  have hx := exec_encode_unsupported f temp u hm
  exact ⟨_, core_run_two (hstep.trans hx) (step_chained_after_raise hu (by decide)), rfl⟩

end Send

/-! ### RECEIVE -/

section Receive

variable {s : State} {qin : QinSource} {rest : List HostAction}

/-- The first command of RECEIVE runs DESERIALIZE, on pairs of the host's or on a QOUT that holds a
value (R171). -/
theorem step_receive (hi : s.inputs = (receiveRequests qin).map .command ++ rest)
    (hq : qin = .qout → s.qout ≠ none) :
    ∃ u, step s = exec .deserialize u ∧ u.qin = qin.value s ∧ u.tolPct = s.tolPct ∧
      u.inputs = .command (chained .decode) :: rest := by
  rw [receiveRequests_eq] at hi
  have hdecoded : decodeCmd (encodeCmd .deserialize) = .ok .deserialize := decodeCmd_encodeCmd rfl
  exact ⟨_, step_of_decoded hi rfl hdecoded (if_neg fun ⟨hqin, hnone⟩ => hq hqin hnone),
    by cases qin <;> rfl, rfl, rfl⟩

/-- RECEIVE of a capture ends as DECODE of its payload does (R171). -/
theorem run_receive {p : Payload} (hi : s.inputs = (receiveRequests qin).map .command ++ rest)
    (hq : qin = .qout → s.qout ≠ none) (hc : Captures s.tolPct (qin.value s) p) :
    ∃ u : State, u.inputs = rest ∧
      core.run 2 s = .next (u.finish ((decodePayload p).map fun d => .sout (soutWord d))) := by
  obtain ⟨u, hstep, hqin, htol, hu⟩ := step_receive hi hq
  rw [← hqin, ← htol] at hc
  obtain ⟨v, hstep', hpin, hv, -⟩ :=
    step_chained (s := u.complete (.pout p)) hu rfl rfl rfl
  refine ⟨v, hv, core_run_two (hstep.trans (exec_deserialize_of_captures hc)) (hstep'.trans ?_)⟩
  rw [exec_eq_finish, hpin]
  simp [opResult]

/-- RECEIVE of anything else ends with FramingError (R171). -/
theorem run_receive_framingError (hi : s.inputs = (receiveRequests qin).map .command ++ rest)
    (hq : qin = .qout → s.qout ≠ none) (hc : ¬ ∃ p, Captures s.tolPct (qin.value s) p) :
    ∃ u : State, core.run 2 s = .next (u.raise .framingError) ∧ u.inputs = rest := by
  obtain ⟨u, hstep, hqin, htol, hu⟩ := step_receive hi hq
  rw [← hqin, ← htol] at hc
  exact ⟨_, core_run_two (hstep.trans (exec_deserialize_of_not_captures hc))
    (step_chained_after_raise hu (by decide)), rfl⟩

end Receive

/-- A capture carries one payload (R151). -/
theorem Captures.unique {tol : Config.TolPct} {q : List Pulse} {p p' : Payload} (h : Captures tol q p)
    (h' : Captures tol q p') : p = p' := by
  obtain ⟨-, hacc⟩ := (captures_iff_feedAll tol q p).mp h
  obtain ⟨-, hacc'⟩ := (captures_iff_feedAll tol q p').mp h'
  exact hacc.symm.trans hacc'

/-- DECODE of a payload writes no port but SOUT, and never ends with TooShort (R111, R171). -/
theorem finish_decodePayload (u : State) (p : Payload) :
    let t := u.finish ((decodePayload p).map fun d => .sout (soutWord d))
    t.pout = none ∧ t.qout = none ∧ t.status ≠ some Status.tooShort.word := by
  rcases decodePayload_outcome p with ⟨d, hd, -⟩ | ⟨e, he, hd⟩ <;> rw [hd]
  · refine ⟨rfl, rfl, fun h => ?_⟩
    have hword : Status.ok.word = Status.tooShort.word := Option.some.inj h
    cases Status.word_injective hword
  · refine ⟨rfl, rfl, fun h => ?_⟩
    have hword : e.word = Status.tooShort.word := Option.some.inj h
    cases Status.word_injective hword
    exact absurd he (by decide)

/-! ### Instantiation -/

/-- A legal tolerance instantiates the block, in the reset state (R204, log entry 8). -/
theorem instantiate_next {n : Nat} (h : n < 50) :
    instantiate n = .next { State.reset with tolPct := ⟨n, h⟩ } := dif_pos h

end Sys2Proof.Machine

namespace Sys2Proof.Proofs

open Sys2Proof.Machine

/-- Settles O57: the frame that SEND leaves on QOUT is a capture of the payload, whose DECODE is the
command word again. -/
theorem receiveOfSentState : Obligations.ReceiveOfSentState := by
  intro s m f temp rest hm hf hlo hhi hi
  rw [List.map_append, List.append_assoc] at hi
  obtain ⟨code, u, hcode, hrun, hu, -⟩ := run_send hi ⟨by omega, by omega⟩ (.inr hm)
  obtain ⟨d, hd, hword⟩ := decodePayload_of_encoded_state hm hf hlo hhi hcode
  have hc := (framePulses_frameOf (encodedPayload true (BitVec.ofNat 8 code) temp f)).captures_append
    u.tolPct []
  rw [List.append_nil] at hc
  obtain ⟨v, hv, hrun'⟩ := run_receive (s := u.complete (.qout _)) hu (fun _ => nofun) hc
  rw [hd] at hrun'
  exact ⟨_, (run_add core 2 2 hrun).trans hrun', hv, rfl, congrArg some hword⟩

/-- Settles O55: SERIALIZE runs on ENCODE's payload, or is not issued. -/
theorem sendOutcome : Obligations.SendOutcome := by
  intro s power m f temp rest ht hi
  by_cases hm : power = false ∨ m.val ≤ 4
  · obtain ⟨code, u, -, hrun, hu, -⟩ := run_send hi ht hm
    refine ⟨_, hrun, hu, fun ⟨hon, hge⟩ => ?_, fun _ => ⟨rfl, _, rfl, framePulses_length _, rfl, rfl⟩⟩
    rcases hm with hoff | hle
    · cases hon.symm.trans hoff
    · omega
  · obtain ⟨hon, hgt⟩ := not_or.mp hm
    obtain rfl : power = true := Bool.eq_true_of_not_eq_false hon
    obtain ⟨u, hrun, hu⟩ := run_send_unsupported hi ht (by omega)
    exact ⟨_, hrun, hu, fun _ => ⟨rfl, u.raise_noOutput _⟩, fun h => absurd h hm⟩

/-- Settles O56: DECODE runs on the one payload of the capture, or is not issued. -/
theorem receiveOutcome : Obligations.ReceiveOutcome := by
  intro s q rest hi
  by_cases hc : ∃ p, Captures s.tolPct q p
  · obtain ⟨p, hp⟩ := hc
    obtain ⟨u, hu, hrun⟩ := run_receive hi nofun hp
    refine ⟨_, hrun, (u.finish_inputs _).trans hu, fun hnone => absurd ⟨p, hp⟩ hnone, fun p' hp' => ?_⟩
    obtain rfl := hp.unique hp'
    obtain ⟨hpout, hqout, hst⟩ := finish_decodePayload u p
    obtain ⟨hstatus, hsout, -, -⟩ := u.finish_outputs_eq s ((decodePayload p).map fun d => .sout (soutWord d))
    exact ⟨_, exec_decode_withPin s p, hstatus, hsout, hpout, hqout, hst⟩
  · obtain ⟨u, hrun, hu⟩ := run_receive_framingError hi nofun hc
    exact ⟨_, hrun, hu, fun _ => ⟨rfl, u.raise_noOutput _⟩, fun p hp => absurd ⟨p, hp⟩ hc⟩

/-- Settles O58: the reader of R79 run on each of the four lines. -/
theorem assemblerPacksProgramP1 : Obligations.AssemblerPacksProgramP1 := by
  unfold Obligations.AssemblerPacksProgramP1
  decide

/-- Settles O59: the reset state with that tolerance. -/
theorem instantiationTakesLegalTolerance : Obligations.InstantiationTakesLegalTolerance :=
  fun _ h => ⟨_, instantiate_next h, rfl, rfl, rfl, rfl, rfl⟩

end Sys2Proof.Proofs
end
